-- ==== Sys2Proof/Word.lean ====
section
/-! DEFINITION. The value types of the block: bytes, 32-bit patterns, the form of an OPEN type, the named
codes of phase and hold type, and the group of four channels. -/

namespace Sys2Proof

/-- An 8-bit value (spec/00_scope.md R7). -/
abbrev Byte := BitVec 8

/-- A 32-bit temperature pattern, stored and forwarded, never interpreted (spec/44_decoder.md R108). -/
abbrev Pattern := BitVec 32

/-- A type that is OPEN: its values are the labels that `mem` admits, and label 0, so that it has a value. With `mem` a
constant without a body nothing is known of it but that it is not empty; a label means nothing, and every non-empty countable
type is one of these up to renaming its values. -/
abbrev OpenType (mem : Nat → Bool) : Type := { n : Nat // n = 0 ∨ mem n = true }

/-- The value of label 0. -/
def OpenType.first {mem : Nat → Bool} : OpenType mem := ⟨0, .inl rfl⟩

/-- The value of label `n`, or of label 0 where `n` labels none. -/
def OpenType.ofLabel {mem : Nat → Bool} (n : Nat) : OpenType mem :=
  if h : mem n = true then ⟨n, .inr h⟩ else OpenType.first

/-- The read-state machine's phase (spec/10_state.md R12). -/
inductive Phase where
  | idle
  | sync
  | payload
  deriving DecidableEq, Repr, Inhabited

/-- The hold type (spec/10_state.md R22, spec/30_encoding.md R51). -/
inductive HoldType where
  | current
  | maximum
  | minimum
  | average
  deriving DecidableEq, Repr, Inhabited

/-- A group of four channels, channel 0 first (spec/10_state.md R22, NCHAN = 4). -/
structure Quad (α : Type) where
  c0 : α
  c1 : α
  c2 : α
  c3 : α
  deriving DecidableEq, Repr, Inhabited

/-- The entry of channel `i`. -/
def Quad.get {α : Type} (q : Quad α) (i : Fin 4) : α :=
  match i with
  | 0 => q.c0
  | 1 => q.c1
  | 2 => q.c2
  | 3 => q.c3

/-- The group with channel `i` replaced. -/
def Quad.set {α : Type} (q : Quad α) (i : Fin 4) (a : α) : Quad α :=
  match i with
  | 0 => { q with c0 := a }
  | 1 => { q with c1 := a }
  | 2 => { q with c2 := a }
  | 3 => { q with c3 := a }

/-- The group whose channel `i` is `f i`. -/
def Quad.ofFn {α : Type} (f : Fin 4 → α) : Quad α :=
  ⟨f 0, f 1, f 2, f 3⟩

end Sys2Proof
end

