-- ==== Sys2Proof/Config.lean ====
section
/-! DEFINITION. What is fixed for one block: the constants of spec/00_scope.md R6, the OPEN parameters as constants
without a body (nothing can prove a value of them), and the free values. -/

namespace Sys2Proof

/-- Which labels are values of Time; Time is OPEN (spec/00_scope.md R6). DESIGN CHOICE (log 5): without a body. Unsafe only
for a claim that lists the values of Time. -/
opaque Config.isTime : Nat → Bool

/-- The type of the `now` input and of CAPTIME, carried and never computed with (spec/92_eei_decisions.md D10). -/
abbrev Time := OpenType Config.isTime

/-- Which labels are values of IoCode; IoCode is OPEN (spec/00_scope.md R6). DESIGN CHOICE (log 6): without a body. Unsafe
only for a claim that lists the values of IoCode. -/
opaque Config.isIoCode : Nat → Bool

/-- The type of a transport error's payload, carried and never computed with (spec/92_eei_decisions.md D26). -/
abbrev IoCode := OpenType Config.isIoCode

/-- What a transport time-out does to a phase (spec/00_scope.md R6, spec/90_conflicts.md C4). -/
inductive TtoPolicy where
  | endPhase
  | tolerate
  deriving DecidableEq, Repr, Inhabited

/-- FRAME_LEN: bytes in one frame (spec/00_scope.md R6). -/
def Config.frameLen : Nat := 56

/-- MARKER_LEN: bytes in the sync marker. -/
def Config.markerLen : Nat := 5

/-- MARKER in stream order (spec/30_encoding.md R47). -/
def Config.marker : List Byte := [0xAA#8, 0x55#8, 0x00#8, 0x34#8, 0x01#8]

/-- The marker as the slice `F[39:0]` of the frame vector (spec/30_encoding.md R47). -/
def Config.markerWord : BitVec 40 := 0x01340055AA#40

/-- The default deadline of each phase, in seconds. -/
def Config.deadlineSeconds : Nat := 5

/-- `TICK_HZ - 1`. DESIGN CHOICE (log 7): a constant without a body. -/
opaque Config.tickHzPred : Nat

/-- TICK_HZ: TICK events per second, OPEN and positive (spec/00_scope.md R6). DESIGN CHOICE (log 7): a whole number, where the
spec does not say that it is one. Unsafe for a claim that rests on the reset limits being multiples of 5. -/
def Config.tickHz : Nat := Config.tickHzPred + 1

/-- The reset value of both limit registers, `5 * TICK_HZ` (spec/10_state.md R28); a positive multiple of 5, since TICK_HZ is
a whole number (DESIGN CHOICE, log 7). -/
def Config.resetLimit : Nat := Config.deadlineSeconds * Config.tickHz

/-- How far TIMER_W exceeds the least width that holds the reset limits. DESIGN CHOICE (log 7). Safe. -/
opaque Config.timerSlack : Nat

/-- TIMER_W: the width of TIMER and of both limits; every width with `2^TIMER_W` above the reset limits is
one of these. -/
def Config.timerW : Nat := Nat.log2 Config.resetLimit + 1 + Config.timerSlack

/-- TTO_POLICY, OPEN between its two values. DESIGN CHOICE (log 9): a constant without a body, so a claim holds for
both. Safe. -/
opaque Config.ttoPolicy : TtoPolicy

/-- The sign bit of NAN_SENTINEL. DESIGN CHOICE (log 10): without a body. Safe. -/
opaque Config.nanSign : BitVec 1

/-- The fraction of NAN_SENTINEL, where it is not 0. DESIGN CHOICE (log 10): without a body. Safe. -/
opaque Config.nanFraction : BitVec 23

/-- A 32-bit pattern with the exponent all ones and a fraction that is not 0: a NaN (spec/30_encoding.md R49).
Fraction 0 is replaced by the quiet bit, so that every NaN pattern, and no other, is one of these. -/
def Config.nanOf (sign : BitVec 1) (fraction : BitVec 23) : Pattern :=
  sign ++ 0xFF#8 ++ (if fraction = 0 then 0x400000#23 else fraction)

/-- NAN_SENTINEL: some NaN pattern, nothing else is known of it (spec/92_eei_decisions.md D11). -/
def Config.nanSentinel : Pattern := Config.nanOf Config.nanSign Config.nanFraction

/-- `DEC_MAXLEN - 56`; DEC_MAXLEN is OPEN and at least 56. DESIGN CHOICE (log 13): without a body. Safe. -/
opaque Config.decSlack : Nat

/-- DEC_MAXLEN: the largest length the stand-alone decoder port accepts. No operation reads it: Decode is defined on every
length (spec/44_decoder.md R92, R107), so the model answers every length, which covers every DEC_MAXLEN (log 13). -/
def Config.decMaxLen : Nat := Config.decSlack + 56

/-- Free value: the byte of BUF at an address nothing has written since RESET (spec/93_implementation_defined.md
U5, any value), applied to the counter State.draws and the address. Log 2. Safe. -/
opaque Config.freeByte : Nat → Nat → Byte

/-- Free value: what CUR (group 0), HELD (group 1) and METER (group 2) read as while RES is not Ok
(spec/93_implementation_defined.md U7), applied to State.draws, the group and the channel. Log 3. Safe. -/
opaque Config.freePattern : Nat → Nat → Nat → Pattern

/-- Free value: what HOLD reads as while RES is not Ok. Log 3. Safe. -/
opaque Config.freeHold : Nat → HoldType

/-- Free value: the label of what CAPTIME reads as while RES is not Ok. Log 3. Safe. -/
opaque Config.freeTimeLabel : Nat → Nat

/-- The same, as a value of Time. -/
def Config.freeTime (n : Nat) : Time := OpenType.ofLabel (Config.freeTimeLabel n)

/-- Free value: the label of what RES_IO reads as while RES is not an Io error. Log 3. Safe. -/
opaque Config.freeIoCodeLabel : Nat → Nat

/-- The same, as a value of IoCode. -/
def Config.freeIoCode (n : Nat) : IoCode := OpenType.ofLabel (Config.freeIoCodeLabel n)

end Sys2Proof
end

