-- ==== Sys2Proof/Syntax.lean ====
section
/-! DEFINITION. The operations of the block, one constructor per row of spec/opcode_table.json: the events by phase,
the frame as a whole, its 21 fields, and the hold-type codes (spec/30_encoding.md R62). -/

namespace Sys2Proof

/-- The operations. Operands are those the row's rule gives: the received byte `b`, the clock `now`, the transport's
error payload `e`, a presented buffer `buf`, a field's value `v`, a hold-type byte `hc`. -/
inductive Instr where
  | reset
  | start
  | rxSync (b : Byte)
  | rxPayload (b : Byte) (now : Time)
  | ttoSync
  | ttoPayload
  | terrSync (e : IoCode)
  | terrPayload (e : IoCode)
  | tickSync
  | tickPayload
  | tickIdle
  | frame56 (buf : List Byte) (now : Time)
  | frame56Valid (buf : List Byte) (now : Time)
  | frame56Current (buf : List Byte) (now : Time)
  | frame56Maximum (buf : List Byte) (now : Time)
  | frame56Minimum (buf : List Byte) (now : Time)
  | frame56Average (buf : List Byte) (now : Time)
  | fieldSync (v : BitVec 40)
  | fieldCf0 (v : Pattern)
  | fieldCf1 (v : Pattern)
  | fieldCf2 (v : Pattern)
  | fieldCf3 (v : Pattern)
  | fieldCe0 (v : Byte)
  | fieldCe1 (v : Byte)
  | fieldCe2 (v : Byte)
  | fieldCe3 (v : Byte)
  | fieldHf0 (v : Pattern)
  | fieldHf1 (v : Pattern)
  | fieldHf2 (v : Pattern)
  | fieldHf3 (v : Pattern)
  | fieldHe0 (v : Byte)
  | fieldHe1 (v : Byte)
  | fieldHe2 (v : Byte)
  | fieldHe3 (v : Byte)
  | fieldMt (v : Pattern)
  | fieldUnk (v : BitVec 32)
  | fieldHc (v : Byte)
  | fieldTr (v : BitVec 16) (now : Time)
  | hcCurrent
  | hcMaximum
  | hcMinimum
  | hcAverage
  | hcInvalid (hc : Byte)
  deriving DecidableEq, Repr

/-- Which rows of the FRAME56 group a buffer at the decoder port is read against: the frame as a whole, the row
FRAME56.VALID, or the four hold-type variants. The rows overlap (FRAME56 holds VALID, VALID holds the variants), so the
choice is the reader's, not the buffer's. DESIGN CHOICE (log 14). Safe: the rows have one meaning. -/
inductive FrameView where
  | whole
  | valid
  | variant
  deriving DecidableEq, Repr

/-- Where a word of bits is presented, which its bits do not say: the event port; the decoder port with a buffer of
`n` bytes; the decoder port with the field that begins at offset `off` of a frame; the hold-type code (log 14). -/
inductive Port where
  | event
  | frame (view : FrameView) (n : Nat)
  | field (off : Nat)
  | code
  deriving DecidableEq, Repr

/-- What the block's two inputs of an OPEN type hold while an operation is presented (spec/92_eei_decisions.md D2): such
values have no bits, so an operation's bytes do not hold them. -/
structure Wires where
  /-- the wall clock `now` -/
  now : Time
  /-- the transport's error payload -/
  err : IoCode
  deriving DecidableEq, Repr

end Sys2Proof
end

