-- ==== Sys2Proof/WellFormed.lean ====
section
/-! DEFINITION. Which operand values belong to an operation's row of spec/opcode_table.json: the row's fixed bits. -/

namespace Sys2Proof

/-- The hold-type byte of a presented buffer, offset 53 (spec/30_encoding.md R46). -/
def frameHc (buf : List Byte) : Byte := buf.getD 53 0

/-- The buffer is in the row FRAME56: 56 bytes beginning with the marker. -/
def isFrame (buf : List Byte) : Bool :=
  decide (buf.length = Config.frameLen) && decide (buf.take 5 = Config.marker)

/-- The buffer is in a row of FRAME56 that also fixes the hold-type byte to `hc`. -/
def isFrameOf (buf : List Byte) (hc : Byte) : Bool :=
  isFrame buf && decide (frameHc buf = hc)

/-- The operand values are those of the operation's row: the marker and the length of a frame, the hold-type byte of a
variant, the marker field, an illegal code for HC.INVALID. Every other operand may take every value. -/
def Instr.wellFormed : Instr → Bool
  | .frame56 buf _ => isFrame buf
  | .frame56Valid buf _ => isFrame buf && decide (frameHc buf ≤ 3)
  | .frame56Current buf _ => isFrameOf buf 0
  | .frame56Maximum buf _ => isFrameOf buf 1
  | .frame56Minimum buf _ => isFrameOf buf 2
  | .frame56Average buf _ => isFrameOf buf 3
  | .fieldSync v => decide (v = Config.markerWord)
  | .hcInvalid hc => decide (3 < hc)
  | .reset | .start | .rxSync _ | .rxPayload _ _ | .ttoSync | .ttoPayload | .terrSync _ | .terrPayload _
  | .tickSync | .tickPayload | .tickIdle => true
  | .fieldCf0 _ | .fieldCf1 _ | .fieldCf2 _ | .fieldCf3 _ | .fieldCe0 _ | .fieldCe1 _ | .fieldCe2 _ | .fieldCe3 _ => true
  | .fieldHf0 _ | .fieldHf1 _ | .fieldHf2 _ | .fieldHf3 _ | .fieldHe0 _ | .fieldHe1 _ | .fieldHe2 _ | .fieldHe3 _ => true
  | .fieldMt _ | .fieldUnk _ | .fieldHc _ | .fieldTr _ _ => true
  | .hcCurrent | .hcMaximum | .hcMinimum | .hcAverage => true

end Sys2Proof
end

