-- ==== Sys2Proof/Decode.lean ====
section
/-! DEFINITION. From bits to an operation and back: byte order, the codes of phase, event and hold type, the decoder of
each port, total on any bytes and rejecting by name, the encoder, and `decodeTableWord`. -/

namespace Sys2Proof

/-! ### Byte order (spec/20_memory.md R34: little-endian everywhere) -/

/-- The number the bytes spell, least significant first: the sum of `bs[i] * 256^i` (spec/20_memory.md R36). -/
def leValue : List Byte → Nat
  | [] => 0
  | b :: bs => b.toNat + 256 * leValue bs

/-- The low `n` bytes of `v`, least significant first. -/
def leBytes : Nat → Nat → List Byte
  | 0, _ => []
  | n + 1, v => BitVec.ofNat 8 v :: leBytes n (v / 256)

/-! ### Codes -/

/-- PHASE codes (spec/30_encoding.md R57). -/
def phaseCode : Phase → BitVec 2
  | .idle => 0
  | .sync => 1
  | .payload => 2

/-- The phase of a code; code 3 is never produced (spec/30_encoding.md R57). -/
def phaseOf (c : BitVec 2) : Option Phase :=
  if c = 0 then some .idle else if c = 1 then some .sync else if c = 2 then some .payload else none

/-- HOLD codes, the wire codes (spec/30_encoding.md R51, R59). -/
def holdCode : HoldType → BitVec 2
  | .current => 0
  | .maximum => 1
  | .minimum => 2
  | .average => 3

/-- The six events (spec/30_encoding.md R56). -/
inductive EventKind where
  | reset
  | start
  | rx
  | tto
  | terr
  | tick
  deriving DecidableEq, Repr

/-- The one-hot event vector `EV[5:0]` of an event (spec/30_encoding.md R56). -/
def eventCode : EventKind → BitVec 6
  | .reset => 0x01
  | .start => 0x02
  | .rx => 0x04
  | .tto => 0x08
  | .terr => 0x10
  | .tick => 0x20

/-- The event of a vector; none where the vector is not one-hot. -/
def eventOf (ev : BitVec 6) : Option EventKind :=
  if ev = 0x01 then some .reset
  else if ev = 0x02 then some .start
  else if ev = 0x04 then some .rx
  else if ev = 0x08 then some .tto
  else if ev = 0x10 then some .terr
  else if ev = 0x20 then some .tick
  else none

/-- The operation byte `{PHASE[1:0], EV[5:0]}` (spec/30_encoding.md R62). -/
def opByte (p : Phase) (ev : BitVec 6) : Byte := phaseCode p ++ ev

/-! ### Decoding -/

/-- Why bits are no operation. -/
inductive Reject where
  /-- fewer bytes than the operation and its operands take -/
  | truncated
  /-- EV is not one-hot, so no event is taken (spec/30_encoding.md R56) -/
  | notOneHot
  /-- PHASE code 3 (spec/30_encoding.md R57) -/
  | noSuchPhase
  /-- START with PHASE not IDLE (spec/40_host_commands.md R65) -/
  | startWhileBusy
  /-- RX, TTO or TERR with PHASE = IDLE (spec/43_transport_events_and_timer.md R90) -/
  | notEnabled
  /-- no field of FRAME56 begins at this offset (spec/30_encoding.md R46) -/
  | noFieldAtOffset
  /-- the buffer is not in the row it is read against -/
  | notInRow
  deriving DecidableEq, Repr

/-- What decoding answers: the operation and the bytes after it, or the reason there is none. -/
inductive Decoded where
  | ok (i : Instr) (rest : List Byte)
  | reject (r : Reject)
  deriving DecidableEq, Repr

/-- Split off the next `n` bytes as a number. -/
def takeLe (n : Nat) (bs : List Byte) (k : Nat → List Byte → Decoded) : Decoded :=
  if bs.length < n then .reject .truncated else k (leValue (bs.take n)) (bs.drop n)

/-- The operation of an event in a phase (spec/40_host_commands.md R68): the received byte follows the operation byte, the
clock and the error payload are what the wires hold. -/
def decodeEventIn (e : EventKind) (p : Phase) (x : Wires) (bs : List Byte) : Decoded :=
  match e, p with
  | .reset, _ => .ok .reset bs
  | .start, .idle => .ok .start bs
  | .start, .sync => .reject .startWhileBusy
  | .start, .payload => .reject .startWhileBusy
  | .rx, .idle => .reject .notEnabled
  | .rx, .sync => takeLe 1 bs fun b r => .ok (.rxSync (BitVec.ofNat 8 b)) r
  | .rx, .payload => takeLe 1 bs fun b r => .ok (.rxPayload (BitVec.ofNat 8 b) x.now) r
  | .tto, .idle => .reject .notEnabled
  | .tto, .sync => .ok .ttoSync bs
  | .tto, .payload => .ok .ttoPayload bs
  | .terr, .idle => .reject .notEnabled
  | .terr, .sync => .ok (.terrSync x.err) bs
  | .terr, .payload => .ok (.terrPayload x.err) bs
  | .tick, .idle => .ok .tickIdle bs
  | .tick, .sync => .ok .tickSync bs
  | .tick, .payload => .ok .tickPayload bs

/-- The event port: an operation byte and its operands. RESET's row does not compare the phase bits. -/
def decodeEvent (x : Wires) : List Byte → Decoded
  | [] => .reject .truncated
  | op :: bs =>
    match eventOf (op.extractLsb' 0 6), phaseOf (op.extractLsb' 6 2) with
    | none, _ => .reject .notOneHot
    | some .reset, _ => .ok .reset bs
    | some _, none => .reject .noSuchPhase
    | some e, some p => decodeEventIn e p x bs

/-- The row of the FRAME56 group a buffer is read as. The whole view takes a buffer of any length and content, because
spec/44_decoder.md R92 and R93 give the rejected ones their result. -/
def frameRow (view : FrameView) (buf : List Byte) (now : Time) : Option Instr :=
  match view with
  | .whole => some (.frame56 buf now)
  | .valid => if isFrame buf && decide (frameHc buf ≤ 3) then some (.frame56Valid buf now) else none
  | .variant =>
    if isFrameOf buf 0 then some (.frame56Current buf now)
    else if isFrameOf buf 1 then some (.frame56Maximum buf now)
    else if isFrameOf buf 2 then some (.frame56Minimum buf now)
    else if isFrameOf buf 3 then some (.frame56Average buf now)
    else none

/-- The decoder port with a buffer of `n` bytes, the first byte at offset 0. -/
def decodeFrameWord (view : FrameView) (n : Nat) (x : Wires) (bs : List Byte) : Decoded :=
  if bs.length < n then .reject .truncated
  else
    match frameRow view (bs.take n) x.now with
    | some i => .ok i (bs.drop n)
    | none => .reject .notInRow

/-- A 32-bit field, least significant byte first. -/
def takeField32 (mk : Pattern → Instr) (bs : List Byte) : Decoded :=
  takeLe 4 bs fun v r => .ok (mk (BitVec.ofNat 32 v)) r

/-- A one-byte field. -/
def takeField8 (mk : Byte → Instr) (bs : List Byte) : Decoded :=
  takeLe 1 bs fun v r => .ok (mk (BitVec.ofNat 8 v)) r

/-- The field of FRAME56 that begins at an offset (spec/30_encoding.md R46); the clock comes with the last. SYNC takes any five bytes, because
spec/44_decoder.md R93 gives those that are not the marker their result. -/
def decodeField (off : Nat) (x : Wires) (bs : List Byte) : Decoded :=
  match off with
  | 0 => takeLe 5 bs fun v r => .ok (.fieldSync (BitVec.ofNat 40 v)) r
  | 5 => takeField32 .fieldCf0 bs
  | 9 => takeField32 .fieldCf1 bs
  | 13 => takeField32 .fieldCf2 bs
  | 17 => takeField32 .fieldCf3 bs
  | 21 => takeField8 .fieldCe0 bs
  | 22 => takeField8 .fieldCe1 bs
  | 23 => takeField8 .fieldCe2 bs
  | 24 => takeField8 .fieldCe3 bs
  | 25 => takeField32 .fieldHf0 bs
  | 29 => takeField32 .fieldHf1 bs
  | 33 => takeField32 .fieldHf2 bs
  | 37 => takeField32 .fieldHf3 bs
  | 41 => takeField8 .fieldHe0 bs
  | 42 => takeField8 .fieldHe1 bs
  | 43 => takeField8 .fieldHe2 bs
  | 44 => takeField8 .fieldHe3 bs
  | 45 => takeField32 .fieldMt bs
  | 49 => takeField32 .fieldUnk bs
  | 53 => takeField8 .fieldHc bs
  | 54 => takeLe 2 bs fun v r => .ok (.fieldTr (BitVec.ofNat 16 v) x.now) r
  | _ => .reject .noFieldAtOffset

/-- The hold-type code byte (spec/30_encoding.md R51). -/
def decodeCode : List Byte → Decoded
  | [] => .reject .truncated
  | hc :: bs =>
    if hc = 0 then .ok .hcCurrent bs
    else if hc = 1 then .ok .hcMaximum bs
    else if hc = 2 then .ok .hcMinimum bs
    else if hc = 3 then .ok .hcAverage bs
    else .ok (.hcInvalid hc) bs

/-- The operation presented at a port. -/
def decode (p : Port) (x : Wires) (bs : List Byte) : Decoded :=
  match p with
  | .event => decodeEvent x bs
  | .frame view n => decodeFrameWord view n x bs
  | .field off => decodeField off x bs
  | .code => decodeCode bs

/-! ### Encoding -/

/-- The port an operation is presented at. -/
def portOf : Instr → Port
  | .reset | .start | .rxSync _ | .rxPayload _ _ | .ttoSync | .ttoPayload | .terrSync _ | .terrPayload _
  | .tickSync | .tickPayload | .tickIdle => .event
  | .frame56 buf _ => .frame .whole buf.length
  | .frame56Valid buf _ => .frame .valid buf.length
  | .frame56Current buf _ | .frame56Maximum buf _ | .frame56Minimum buf _ | .frame56Average buf _ =>
    .frame .variant buf.length
  | .fieldSync _ => .field 0
  | .fieldCf0 _ => .field 5
  | .fieldCf1 _ => .field 9
  | .fieldCf2 _ => .field 13
  | .fieldCf3 _ => .field 17
  | .fieldCe0 _ => .field 21
  | .fieldCe1 _ => .field 22
  | .fieldCe2 _ => .field 23
  | .fieldCe3 _ => .field 24
  | .fieldHf0 _ => .field 25
  | .fieldHf1 _ => .field 29
  | .fieldHf2 _ => .field 33
  | .fieldHf3 _ => .field 37
  | .fieldHe0 _ => .field 41
  | .fieldHe1 _ => .field 42
  | .fieldHe2 _ => .field 43
  | .fieldHe3 _ => .field 44
  | .fieldMt _ => .field 45
  | .fieldUnk _ => .field 49
  | .fieldHc _ => .field 53
  | .fieldTr _ _ => .field 54
  | .hcCurrent | .hcMaximum | .hcMinimum | .hcAverage | .hcInvalid _ => .code

/-- The wires an operation is presented with: its own clock or error payload, what `x` holds elsewhere. -/
def wiresOf (x : Wires) : Instr → Wires
  | .terrSync e | .terrPayload e => { x with err := e }
  | .rxPayload _ now | .frame56 _ now | .frame56Valid _ now | .frame56Current _ now | .frame56Maximum _ now
  | .frame56Minimum _ now | .frame56Average _ now | .fieldTr _ now => { x with now := now }
  | .reset | .start | .rxSync _ | .ttoSync | .ttoPayload | .tickSync | .tickPayload | .tickIdle | .fieldSync _
  | .fieldCf0 _ | .fieldCf1 _ | .fieldCf2 _ | .fieldCf3 _ | .fieldCe0 _ | .fieldCe1 _ | .fieldCe2 _ | .fieldCe3 _
  | .fieldHf0 _ | .fieldHf1 _ | .fieldHf2 _ | .fieldHf3 _ | .fieldHe0 _ | .fieldHe1 _ | .fieldHe2 _ | .fieldHe3 _
  | .fieldMt _ | .fieldUnk _ | .fieldHc _ | .hcCurrent | .hcMaximum | .hcMinimum | .hcAverage
  | .hcInvalid _ => x

/-- The bytes of an operation, first byte at the lowest address: the row's bits of spec/opcode_table.json, then the
received byte, which the table gives no bits (log 15). RESET is written with phase bits 0. -/
def encode : Instr → List Byte
  | .reset => [0x01#8]
  | .start => [0x02#8]
  | .rxSync b => [0x44#8, b]
  | .rxPayload b _ => [0x84#8, b]
  | .ttoSync => [0x48#8]
  | .ttoPayload => [0x88#8]
  | .terrSync _ => [0x50#8]
  | .terrPayload _ => [0x90#8]
  | .tickSync => [0x60#8]
  | .tickPayload => [0xA0#8]
  | .tickIdle => [0x20#8]
  | .frame56 buf _ => buf
  | .frame56Valid buf _ => buf
  | .frame56Current buf _ => buf
  | .frame56Maximum buf _ => buf
  | .frame56Minimum buf _ => buf
  | .frame56Average buf _ => buf
  | .fieldSync v => leBytes 5 v.toNat
  | .fieldCf0 v => leBytes 4 v.toNat
  | .fieldCf1 v => leBytes 4 v.toNat
  | .fieldCf2 v => leBytes 4 v.toNat
  | .fieldCf3 v => leBytes 4 v.toNat
  | .fieldCe0 v => [v]
  | .fieldCe1 v => [v]
  | .fieldCe2 v => [v]
  | .fieldCe3 v => [v]
  | .fieldHf0 v => leBytes 4 v.toNat
  | .fieldHf1 v => leBytes 4 v.toNat
  | .fieldHf2 v => leBytes 4 v.toNat
  | .fieldHf3 v => leBytes 4 v.toNat
  | .fieldHe0 v => [v]
  | .fieldHe1 v => [v]
  | .fieldHe2 v => [v]
  | .fieldHe3 v => [v]
  | .fieldMt v => leBytes 4 v.toNat
  | .fieldUnk v => leBytes 4 v.toNat
  | .fieldHc v => [v]
  | .fieldTr v _ => leBytes 2 v.toNat
  | .hcCurrent => [0x00#8]
  | .hcMaximum => [0x01#8]
  | .hcMinimum => [0x02#8]
  | .hcAverage => [0x03#8]
  | .hcInvalid hc => [hc]

/-! ### The opcode table's numbering of bits -/

/-- Bytes of the longest operation: a 56-byte frame. -/
def longestInstr : Nat := 56

/-- The bytes of a table word, every bit above it 0. -/
def tableBytes (w : Nat) : List Byte := leBytes longestInstr w

/-- The port a table word is taken to be presented at, since its bits do not say (log 14). Eight bits are an operation
byte where bits 5:0 are one-hot and a hold-type code elsewhere; 16, 32 and 40 bits are the first field of that width in
frame order; 448 bits are a frame, read as a hold-type variant where it is one. -/
def tablePort (nbits w : Nat) : Option Port :=
  if nbits = 8 then
    (match eventOf (BitVec.ofNat 6 w) with
    | some _ => some .event
    | none => some .code)
  else if nbits = 16 then some (.field 54)
  else if nbits = 32 then some (.field 5)
  else if nbits = 40 then some (.field 0)
  else if nbits = 448 then
    (if frameHc (tableBytes w) ≤ 3 && isFrame ((tableBytes w).take 56) then some (.frame .variant 56)
     else some (.frame .whole 56))
  else none

/-- Wires whose values nothing chose: what a table word, which has no bits for them, is presented with. -/
def Wires.any : Wires := { now := OpenType.first, err := OpenType.first }

/-- The wires of the decoder port, which takes the clock and reads no error payload. -/
def Wires.ofClock (now : Time) : Wires := { now := now, err := OpenType.first }

/-- The operation the decoder reads from a word of spec/opcode_table.json. -/
def decodeTableWord (nbits w : Nat) : Option Instr :=
  match tablePort nbits w with
  | none => none
  | some p =>
    match decode p Wires.any (tableBytes w) with
    | .ok i _ => some i
    | .reject _ => none

end Sys2Proof
end

