-- ==== Sys2Proof/Machine/State.lean ====
section
/-! DEFINITION. The state of the block and of what its rules read around it, as plain data, with the reasons a step can
stop and the state after reset. -/

namespace Sys2Proof.Machine

/-- One decoded measurement frame (spec/10_state.md R22): the eleven reading registers. -/
structure Reading where
  /-- CUR[0..3], current temperatures -/
  cur : Quad Pattern
  /-- HELD[0..3], held temperatures -/
  held : Quad Pattern
  /-- METER, the instrument's own temperature -/
  meter : Pattern
  /-- HOLD, what the held values mean -/
  hold : HoldType
  /-- CAPTIME, the wall clock at the completing step -/
  captime : Time
  deriving DecidableEq, Repr

/-- The error kinds (spec/60_exceptions.md R109). -/
inductive ErrorKind where
  | syncTimeout
  | payloadTimeout
  | io (e : IoCode)
  | wrongSize
  | badSync
  | invalidHoldType
  | incompleteParse
  deriving DecidableEq, Repr

/-- RES: the result of the last read (spec/10_state.md R17, R29). RES_KIND, RES_IO and the reading registers are its
parts; the sum type makes a reading that is not there unreadable. -/
inductive Res where
  | none
  | ok (r : Reading)
  | err (k : ErrorKind)
  deriving DecidableEq, Repr

/-- What the extraction of one field answered last (spec/44_decoder.md R93 to R104). It is an answer: no step reads it, so
the cursor and the temporaries of Decode are no state (spec/10_state.md R26). The MODEL's own (log 12). -/
inductive FieldOut where
  | none
  /-- SYNC holds the marker -/
  | marker
  /-- SYNC does not hold the marker -/
  | badSync
  /-- the value of current channel `i` -/
  | cf (i : Fin 4) (v : Pattern)
  /-- the error flag of current channel `i` -/
  | ce (i : Fin 4) (v : Byte)
  /-- the value of held channel `i` -/
  | hf (i : Fin 4) (v : Pattern)
  /-- the error flag of held channel `i` -/
  | he (i : Fin 4) (v : Byte)
  | meter (v : Pattern)
  /-- UNK is read and discarded -/
  | discarded
  | hold (h : HoldType)
  | invalidHoldType
  /-- TR is read and discarded, and the clock sampled -/
  | captime (now : Time)
  deriving DecidableEq, Repr

/-- What the hold-type mapping answered last (spec/30_encoding.md R51). The MODEL's own (log 12). -/
inductive CodeOut where
  | none
  | hold (h : HoldType)
  | invalidHoldType
  deriving DecidableEq, Repr

/-- The stand-alone decoder port (spec/44_decoder.md R91, spec/92_eei_decisions.md D25): the last answer of
Decode, of the hold-type mapping, and of a field's extraction. Answers only: no operation reads them. The MODEL's own
(log 11). -/
structure DecPort where
  out : Res
  code : CodeOut
  field : FieldOut
  deriving DecidableEq, Repr

/-- One activity at the block's ports. -/
inductive Input where
  /-- one event: the vector EV, and what the clock and error-code inputs hold in that step (spec/30_encoding.md R56) -/
  | event (ev : BitVec 6) (now : Time) (e : IoCode)
  /-- a buffer of any length at the stand-alone decoder port, and the row group it is read against -/
  | frame (view : FrameView) (buf : List Byte) (now : Time)
  /-- the bytes of the field that begins at an offset, at the stand-alone decoder port -/
  | field (off : Nat) (bytes : List Byte) (now : Time)
  /-- a hold-type code -/
  | code (hc : Byte)
  /-- the host writes SYNC_LIMIT (spec/40_host_commands.md R67) -/
  | writeSyncLimit (v : Nat)
  /-- the host writes PAYLOAD_LIMIT (spec/40_host_commands.md R67) -/
  | writePayloadLimit (v : Nat)
  deriving DecidableEq, Repr

/-- The whole state. The first seven fields are the block's (spec/10_state.md R29); `stream`, `pos` and `inputs` are the
environment's (spec/10_state.md R25); `draws` and `port` are the model's own. -/
structure State where
  /-- PHASE (spec/10_state.md R12) -/
  phase : Phase
  /-- CNT (spec/10_state.md R13) -/
  cnt : Nat
  /-- BUF (spec/10_state.md R14): the bytes written since RESET, by rising offset -/
  buf : List Host.Cell
  /-- TIMER (spec/10_state.md R15) -/
  timer : Nat
  /-- SYNC_LIMIT (spec/10_state.md R16) -/
  syncLimit : Nat
  /-- PAYLOAD_LIMIT (spec/10_state.md R16) -/
  payloadLimit : Nat
  /-- RES (spec/10_state.md R17) -/
  res : Res
  /-- the counter the free values are applied to; the model's own (log 4) -/
  draws : Nat
  /-- the stand-alone decoder port; the model's own (log 11) -/
  port : DecPort
  /-- the bytes the transport still holds, next one first (spec/10_state.md R25, R29). DESIGN CHOICE (log 8): a finite list that
  no step extends, where R29 allows an infinite stream; after its last byte RX is refused noByte (log 20) -/
  stream : List Byte
  /-- how many bytes the block has consumed (spec/20_memory.md R44) -/
  pos : Nat
  /-- what happens at the ports next, oldest first. DESIGN CHOICE (log 1): a finite list that no step extends -/
  inputs : List Input
  deriving DecidableEq, Repr

/-- The machine stops with a fault. -/
inductive Fault where
  /-- raised by RX in PAYLOAD when CNT is 56 or more, by storing at an offset the 56-byte buffer does not have
  (spec/20_memory.md R30); no run from reset reaches it. Safe. -/
  | bufAddress (a : Nat)
  deriving DecidableEq, Repr

/-- The machine gives a step no meaning. -/
inductive Refusal where
  /-- raised by exec's arm of an operation that has no meaning yet. Safe. -/
  | notModelled (mnemonic : String)
  /-- raised by START with PHASE not IDLE, which spec/40_host_commands.md R65 tells a model to refuse. Safe. -/
  | startWhileBusy
  /-- raised by RX, TTO and TERR with PHASE = IDLE, which the environment cannot produce
  (spec/43_transport_events_and_timer.md R90). Safe. -/
  | notEnabled
  /-- raised by an operation of one phase given to exec in another; step never does so, since PHASE is part of the
  operation byte. Safe. -/
  | phaseMismatch
  /-- raised by a host write of a limit with PHASE not IDLE, which spec/70_reset_and_hazards.md R136 gives no meaning.
  Safe. -/
  | limitWriteWhileBusy
  /-- raised by a host write of a number that does not fit TIMER_W bits, which no host can present. Safe. -/
  | limitTooWide
  /-- raised by an RX event while the transport holds no byte: there is nothing it could carry
  (spec/20_memory.md R33). Safe. -/
  | noByte
  /-- raised by an event vector that is not one-hot (spec/30_encoding.md R56). Safe. -/
  | notOneHot
  /-- raised by PHASE code 3, which no state has. Safe. -/
  | noSuchPhase
  /-- raised by fewer bytes at a port than the operation takes. Safe. -/
  | truncated
  /-- raised by a field presented with another number of bytes than it has. Safe. -/
  | fieldLength
  /-- raised by an offset at which no field of FRAME56 begins. Safe. -/
  | noFieldAtOffset
  /-- raised by a buffer read against a row it is not in. Safe. -/
  | notInRow
  deriving DecidableEq, Repr

/-- The decoder port after reset: no answer (log 11). -/
def DecPort.init : DecPort := { out := .none, code := .none, field := .none }

/-- The machine right after reset (spec/10_state.md R28, spec/70_reset_and_hazards.md R131): both limits at five
seconds, nothing listed in BUF. The environment holds nothing yet (log 1, 8). -/
def State.reset : State :=
  { phase := .idle
    cnt := 0
    buf := []
    timer := 0
    syncLimit := Config.resetLimit
    payloadLimit := Config.resetLimit
    res := .none
    draws := 0
    port := DecPort.init
    stream := []
    pos := 0
    inputs := [] }

end Sys2Proof.Machine
end

