-- ==== Sys2Proof/Machine/Ops.lean ====
section
/-! DEFINITION. The named operations over the state: register writes, the frame buffer as memory, the delivery of a
result (the block's one exception entry) and the answers of the decoder port. -/

namespace Sys2Proof.Machine

/-! ### Register writes: `X <- v` of spec/00_scope.md R7, one per field -/

/-- Write PHASE. -/
def State.setPhase (s : State) (v : Phase) : State := { s with phase := v }

/-- Write CNT. -/
def State.setCnt (s : State) (v : Nat) : State := { s with cnt := v }

/-- Write BUF. -/
def State.setBuf (s : State) (v : List Host.Cell) : State := { s with buf := v }

/-- Write TIMER. -/
def State.setTimer (s : State) (v : Nat) : State := { s with timer := v }

/-- Write SYNC_LIMIT. -/
def State.setSyncLimit (s : State) (v : Nat) : State := { s with syncLimit := v }

/-- Write PAYLOAD_LIMIT. -/
def State.setPayloadLimit (s : State) (v : Nat) : State := { s with payloadLimit := v }

/-- Write RES. -/
def State.setRes (s : State) (v : Res) : State := { s with res := v }

/-- Write the draw counter. -/
def State.setDraws (s : State) (v : Nat) : State := { s with draws := v }

/-- Write the decoder port. -/
def State.setPort (s : State) (v : DecPort) : State := { s with port := v }

/-- Write the bytes the transport holds. -/
def State.setStream (s : State) (v : List Byte) : State := { s with stream := v }

/-- Write the stream position. -/
def State.setPos (s : State) (v : Nat) : State := { s with pos := v }

/-- Write the port activity to come. -/
def State.setInputs (s : State) (v : List Input) : State := { s with inputs := v }

/-- Later free values are fresh (log 4). -/
def State.nextDraw (s : State) : State := s.setDraws (s.draws + 1)

/-! ### The frame buffer (spec/20_memory.md R30, R31, R37)

The canonical form: offsets strictly rising, all below 56. An offset that is not listed holds no value anything has
written. -/

/-- The contents of BUF: the written bytes by offset. -/
abbrev Memory := List Host.Cell

/-- The byte written at an offset; none where nothing has been written since RESET. -/
def Memory.read : Memory → Nat → Option Byte
  | [], _ => none
  | (a, v) :: m, x => if x = a then some v else Memory.read m x

/-- `BUF[x] <- v`, one byte, in place or inserted where its offset belongs. -/
def Memory.write : Memory → Nat → Byte → Memory
  | [], x, v => [(x, v)]
  | (a, w) :: m, x, v =>
    if x < a then (x, v) :: (a, w) :: m
    else if x = a then (x, v) :: m
    else (a, w) :: Memory.write m x v

/-- Write bytes at rising offsets from `a` on. -/
def Memory.writeList : Memory → Nat → List Byte → Memory
  | m, _, [] => m
  | m, a, v :: vs => Memory.writeList (m.write a v) (a + 1) vs

/-- Offsets strictly rising from `lo` on, all below 56. -/
def Memory.risingFrom : Nat → Memory → Bool
  | _, [] => true
  | lo, (a, _) :: m => decide (lo ≤ a) && decide (a < Config.frameLen) && Memory.risingFrom (a + 1) m

/-- The canonical form. -/
def Memory.wf (m : Memory) : Bool := Memory.risingFrom 0 m

/-- `BUF[a]` as a rule reads it: the byte written there, else any value (spec/93_implementation_defined.md U5), a free
value of Config (log 2). -/
def bufByte (s : State) (a : Nat) : Byte := (Memory.read s.buf a).getD (Config.freeByte s.draws a)

/-- `BUF[a..a+n-1]` in index order. -/
def bufBytes (s : State) (a n : Nat) : List Byte := (List.range n).map fun i => bufByte s (a + i)

/-- `MemWrite(a, 1, v)` (spec/20_memory.md R37). -/
def memWrite (s : State) (a : Nat) (v : Byte) : State := s.setBuf (Memory.write s.buf a v)

/-! ### Delivery of a result (spec/60_exceptions.md R117), the block's one exception entry

There is no return from it but START (spec/60_exceptions.md R121). -/

/-- `deliver(r)`: RES takes the result, PHASE returns to IDLE, CNT, BUF and TIMER keep what they held. -/
def deliver (r : Res) (s : State) : State := ((s.setRes r).setPhase .idle).nextDraw

/-- `raise <Kind>(info)` (spec/00_scope.md R8). -/
def raise (k : ErrorKind) (s : State) : State := deliver (.err k) s

/-! ### Phase checks: `require PHASE = p` -/

/-- The operation's next state where PHASE is `p`; refused for the reason `r` elsewhere. -/
def inPhase (p : Phase) (r : Refusal) (s t : State) : Host.Outcome State Fault Refusal :=
  if s.phase = p then .next t else .refused r

/-- Why a transport event is refused outside its phase: not enabled in IDLE (spec/43_transport_events_and_timer.md R90). -/
def transportRefusal (s : State) : Refusal := if s.phase = .idle then .notEnabled else .phaseMismatch

/-! ### The decoder port -/

/-- An evaluation of Decode answers `r` at the decoder port (spec/44_decoder.md R91). -/
def portAnswer (r : Res) (s : State) : State := s.setPort { s.port with out := r }

/-- The extraction of a field answers `o`. -/
def portField (o : FieldOut) (s : State) : State := s.setPort { s.port with field := o }

/-- The hold-type mapping answers `c`. -/
def portCode (c : CodeOut) (s : State) : State := s.setPort { s.port with code := c }

end Sys2Proof.Machine
end

