-- ==== Sys2Proof/Machine/Operands.lean ====
section
/-! DEFINITION. How the fields of a frame are assembled from bytes, the substitution of the sentinel, and the hold-type
enumeration (spec/20_memory.md R36, spec/30_encoding.md R46 to R51). -/

namespace Sys2Proof.Machine

/-- `MemRead(a, n)`: the `n` bytes from offset `a` on, least significant first (spec/20_memory.md R36). -/
def memRead (buf : List Byte) (a n : Nat) : Nat := leValue ((buf.drop a).take n)

/-- A 32-bit field at offset `a` (spec/30_encoding.md R49). -/
def mem32 (buf : List Byte) (a : Nat) : BitVec 32 := BitVec.ofNat 32 (memRead buf a 4)

/-- The 16-bit field at offset `a` (spec/30_encoding.md R48). -/
def mem16 (buf : List Byte) (a : Nat) : BitVec 16 := BitVec.ofNat 16 (memRead buf a 2)

/-- A one-byte field at offset `a`. -/
def mem8 (buf : List Byte) (a : Nat) : Byte := BitVec.ofNat 8 (memRead buf a 1)

/-- The frame vector `F`, the sum of `BUF[i] * 256^i` (spec/30_encoding.md R46). -/
def frameVector (buf : List Byte) : BitVec 448 := BitVec.ofNat 448 (leValue buf)

/-- One channel: the sentinel where its flag is not zero, its value elsewhere (spec/44_decoder.md R96). -/
def substitute (nan : Pattern) (value : Pattern) (flag : Byte) : Pattern := if flag ≠ 0 then nan else value

/-- The four channels of a group, lane by lane (spec/44_decoder.md R96, R99, R108). -/
def substituteQuad (nan : Pattern) (values : Quad Pattern) (flags : Quad Byte) : Quad Pattern :=
  Quad.ofFn fun i => substitute nan (values.get i) (flags.get i)

/-- The hold type of a code byte; none for the 252 illegal values (spec/30_encoding.md R51). -/
def holdOf (hc : Byte) : Option HoldType :=
  if hc = 0 then some .current
  else if hc = 1 then some .maximum
  else if hc = 2 then some .minimum
  else if hc = 3 then some .average
  else none

end Sys2Proof.Machine
end

