-- ==== Sys2Proof/Machine/Fields.lean ====
section
/-! DEFINITION. The FIELD rows: the extraction of one field of FRAME56 at the stand-alone decoder port, as the step of Decode
that reads it does it (spec/44_decoder.md R93 to R104; log 12). A row takes the field's bytes and answers; it reads no state,
so nothing of Decode lasts from step to step (spec/10_state.md R26). -/

namespace Sys2Proof.Machine

/-- The sync check (spec/44_decoder.md R93). -/
def syncAnswer (v : BitVec 40) : FieldOut := if v = Config.markerWord then .marker else .badSync

/-- The hold type, or that there is none (spec/44_decoder.md R102). -/
def holdAnswer (hc : Byte) : FieldOut :=
  match holdOf hc with
  | some h => .hold h
  | none => .invalidHoldType

/-- FIELD.SYNC. -/
def execFieldSync (v : BitVec 40) (s : State) : Host.Outcome State Fault Refusal :=
  .next (portField (syncAnswer v) s)

/-- FIELD.CF0 (spec/44_decoder.md R94). -/
def execFieldCf0 (v : Pattern) (s : State) : Host.Outcome State Fault Refusal :=
  .next (portField (.cf 0 v) s)

/-- FIELD.CF1 (spec/44_decoder.md R94). -/
def execFieldCf1 (v : Pattern) (s : State) : Host.Outcome State Fault Refusal :=
  .next (portField (.cf 1 v) s)

/-- FIELD.CF2 (spec/44_decoder.md R94). -/
def execFieldCf2 (v : Pattern) (s : State) : Host.Outcome State Fault Refusal :=
  .next (portField (.cf 2 v) s)

/-- FIELD.CF3 (spec/44_decoder.md R94). -/
def execFieldCf3 (v : Pattern) (s : State) : Host.Outcome State Fault Refusal :=
  .next (portField (.cf 3 v) s)

/-- FIELD.CE0 (spec/44_decoder.md R95). -/
def execFieldCe0 (v : Byte) (s : State) : Host.Outcome State Fault Refusal :=
  .next (portField (.ce 0 v) s)

/-- FIELD.CE1 (spec/44_decoder.md R95). -/
def execFieldCe1 (v : Byte) (s : State) : Host.Outcome State Fault Refusal :=
  .next (portField (.ce 1 v) s)

/-- FIELD.CE2 (spec/44_decoder.md R95). -/
def execFieldCe2 (v : Byte) (s : State) : Host.Outcome State Fault Refusal :=
  .next (portField (.ce 2 v) s)

/-- FIELD.CE3 (spec/44_decoder.md R95). -/
def execFieldCe3 (v : Byte) (s : State) : Host.Outcome State Fault Refusal :=
  .next (portField (.ce 3 v) s)

/-- FIELD.HF0 (spec/44_decoder.md R97). -/
def execFieldHf0 (v : Pattern) (s : State) : Host.Outcome State Fault Refusal :=
  .next (portField (.hf 0 v) s)

/-- FIELD.HF1 (spec/44_decoder.md R97). -/
def execFieldHf1 (v : Pattern) (s : State) : Host.Outcome State Fault Refusal :=
  .next (portField (.hf 1 v) s)

/-- FIELD.HF2 (spec/44_decoder.md R97). -/
def execFieldHf2 (v : Pattern) (s : State) : Host.Outcome State Fault Refusal :=
  .next (portField (.hf 2 v) s)

/-- FIELD.HF3 (spec/44_decoder.md R97). -/
def execFieldHf3 (v : Pattern) (s : State) : Host.Outcome State Fault Refusal :=
  .next (portField (.hf 3 v) s)

/-- FIELD.HE0 (spec/44_decoder.md R98). -/
def execFieldHe0 (v : Byte) (s : State) : Host.Outcome State Fault Refusal :=
  .next (portField (.he 0 v) s)

/-- FIELD.HE1 (spec/44_decoder.md R98). -/
def execFieldHe1 (v : Byte) (s : State) : Host.Outcome State Fault Refusal :=
  .next (portField (.he 1 v) s)

/-- FIELD.HE2 (spec/44_decoder.md R98). -/
def execFieldHe2 (v : Byte) (s : State) : Host.Outcome State Fault Refusal :=
  .next (portField (.he 2 v) s)

/-- FIELD.HE3 (spec/44_decoder.md R98). -/
def execFieldHe3 (v : Byte) (s : State) : Host.Outcome State Fault Refusal :=
  .next (portField (.he 3 v) s)

/-- FIELD.MT (spec/44_decoder.md R100). -/
def execFieldMt (v : Pattern) (s : State) : Host.Outcome State Fault Refusal :=
  .next (portField (.meter v) s)

/-- FIELD.UNK: the value is read and discarded (spec/44_decoder.md R101). -/
def execFieldUnk (_v : BitVec 32) (s : State) : Host.Outcome State Fault Refusal :=
  .next (portField .discarded s)

/-- FIELD.HC. -/
def execFieldHc (v : Byte) (s : State) : Host.Outcome State Fault Refusal :=
  .next (portField (holdAnswer v) s)

/-- FIELD.TR: the value is read and discarded (spec/44_decoder.md R103), and the clock is sampled (R104). -/
def execFieldTr (_v : BitVec 16) (now : Time) (s : State) : Host.Outcome State Fault Refusal :=
  .next (portField (.captime now) s)

end Sys2Proof.Machine
end

