-- ==== Sys2Proof/Machine/HoldCodes.lean ====
section
/-! DEFINITION. The CODE rows: the hold-type enumeration on one code byte, its answer on the port's own output
(spec/30_encoding.md R51, R59; log 12). -/

namespace Sys2Proof.Machine

/-- The mapping of spec/30_encoding.md R51 applied to a code byte. -/
def mapHold (hc : Byte) (s : State) : State :=
  match holdOf hc with
  | some h => portCode (.hold h) s
  | none => portCode .invalidHoldType s

/-- HC.CURRENT: code 0. -/
def execHcCurrent (s : State) : Host.Outcome State Fault Refusal := .next (mapHold 0 s)

/-- HC.MAXIMUM: code 1. -/
def execHcMaximum (s : State) : Host.Outcome State Fault Refusal := .next (mapHold 1 s)

/-- HC.MINIMUM: code 2. -/
def execHcMinimum (s : State) : Host.Outcome State Fault Refusal := .next (mapHold 2 s)

/-- HC.AVERAGE: code 3. -/
def execHcAverage (s : State) : Host.Outcome State Fault Refusal := .next (mapHold 3 s)

/-- HC.INVALID: a code above 3. -/
def execHcInvalid (hc : Byte) (s : State) : Host.Outcome State Fault Refusal := .next (mapHold hc s)

end Sys2Proof.Machine
end

