-- ==== Sys2Proof/Machine/Flags.lean ====
section
/-! DEFINITION. The three status flags and the kind of the result, functions of other state with no storage of their own
(spec/10_state.md R18, R20). -/

namespace Sys2Proof.Machine

/-- BUSY: a read is in flight. -/
def State.busy (s : State) : Bool := decide (s.phase ≠ .idle)

/-- RX_READY: the block requests bytes. -/
def State.rxReady (s : State) : Bool := decide (s.phase ≠ .idle)

/-- RES_KIND: the code of the result (spec/30_encoding.md R58). -/
def Res.kindCode : Res → BitVec 4
  | .none => 0
  | .ok _ => 1
  | .err .syncTimeout => 2
  | .err .payloadTimeout => 3
  | .err (.io _) => 4
  | .err .wrongSize => 5
  | .err .badSync => 6
  | .err .invalidHoldType => 7
  | .err .incompleteParse => 8

/-- DONE: a result is available. -/
def State.done (s : State) : Bool := decide (s.res.kindCode ≠ 0)

end Sys2Proof.Machine
end

