-- ==== Sys2Proof/Machine/HostOps.lean ====
section
/-! DEFINITION. What the host does to the block: RESET, START, writes of the two limits, result read-out
(spec/40_host_commands.md R63 to R67). -/

namespace Sys2Proof.Machine

/-- RESET (spec/40_host_commands.md R63), in every phase. BUF is unspecified afterwards: nothing listed, so that every
byte is a fresh free value (log 2); so is the result, through RES (log 3). -/
def resetState (s : State) : State :=
  ((((((((s.setPhase .idle).setCnt 0).setTimer 0).setRes .none).setSyncLimit Config.resetLimit).setPayloadLimit
    Config.resetLimit).setBuf []).nextDraw)

/-- START from IDLE (spec/40_host_commands.md R64). BUF is not cleared. -/
def startState (s : State) : State :=
  ((((s.setPhase .sync).setCnt 0).setTimer s.syncLimit).setRes .none).nextDraw

/-- RESET. -/
def execReset (s : State) : Host.Outcome State Fault Refusal := .next (resetState s)

/-- START; with PHASE not IDLE it has no meaning (spec/40_host_commands.md R65). -/
def execStart (s : State) : Host.Outcome State Fault Refusal := inPhase .idle .startWhileBusy s (startState s)

/-- The two configuration registers (spec/10_state.md R16). -/
inductive LimitReg where
  | sync
  | payload
  deriving DecidableEq, Repr

/-- The register write itself. -/
def setLimit (r : LimitReg) (v : Nat) (s : State) : State :=
  match r with
  | .sync => s.setSyncLimit v
  | .payload => s.setPayloadLimit v

/-- A host write of a limit: allowed in IDLE only (spec/40_host_commands.md R67, spec/70_reset_and_hazards.md R136), of a
number of TIMER_W bits. -/
def writeLimit (r : LimitReg) (v : Nat) (s : State) : Host.Outcome State Fault Refusal :=
  if s.phase ≠ .idle then .refused .limitWriteWhileBusy
  else if v < 2 ^ Config.timerW then .next (setLimit r v s)
  else .refused .limitTooWide

/-! ### Result read-out (spec/40_host_commands.md R66): no event, no change of state

Meaningful while RES_KIND is the register's own kind; elsewhere any value, a free value of Config (log 3). -/

/-- RES_IO. -/
def readResIo (s : State) : IoCode :=
  match s.res with
  | .err (.io e) => e
  | .none | .ok _ | .err _ => Config.freeIoCode s.draws

/-- CUR[i]. -/
def readCur (s : State) (i : Fin 4) : Pattern :=
  match s.res with
  | .ok r => r.cur.get i
  | .none | .err _ => Config.freePattern s.draws 0 i

/-- HELD[i]. -/
def readHeld (s : State) (i : Fin 4) : Pattern :=
  match s.res with
  | .ok r => r.held.get i
  | .none | .err _ => Config.freePattern s.draws 1 i

/-- METER. -/
def readMeter (s : State) : Pattern :=
  match s.res with
  | .ok r => r.meter
  | .none | .err _ => Config.freePattern s.draws 2 0

/-- HOLD. -/
def readHold (s : State) : HoldType :=
  match s.res with
  | .ok r => r.hold
  | .none | .err _ => Config.freeHold s.draws

/-- CAPTIME. -/
def readCaptime (s : State) : Time :=
  match s.res with
  | .ok r => r.captime
  | .none | .err _ => Config.freeTime s.draws

end Sys2Proof.Machine
end

