-- ==== Sys2Proof/Machine/FrameDecoder.lean ====
section
/-! DEFINITION. The binary payload decoder as one function (spec/44_decoder.md R91), and the rows of the FRAME56 group: a
buffer presented at the stand-alone decoder port. -/

namespace Sys2Proof.Machine

/-- `Decode(buf, n, now)` with `n` the length of `buf` (spec/44_decoder.md R91), failing fast on the first violated
constraint. `nan` is NAN_SENTINEL. -/
def decodeFrame (nan : Pattern) (buf : List Byte) (now : Time) : Res :=
  if buf.length ≠ Config.frameLen then .err .wrongSize
  else if buf.take Config.markerLen ≠ Config.marker then .err .badSync
  else
    let cur := 5
    let cf : Quad Pattern := Quad.ofFn fun i => mem32 buf (cur + 4 * i)
    let cur := cur + 16
    let ce : Quad Byte := Quad.ofFn fun i => mem8 buf (cur + i)
    let cur := cur + 4
    let hf : Quad Pattern := Quad.ofFn fun i => mem32 buf (cur + 4 * i)
    let cur := cur + 16
    let he : Quad Byte := Quad.ofFn fun i => mem8 buf (cur + i)
    let cur := cur + 4
    let meter := mem32 buf cur
    let cur := cur + 4
    let _unk := mem32 buf cur
    let cur := cur + 4
    match holdOf (mem8 buf cur) with
    | none => .err .invalidHoldType
    | some hold =>
      let cur := cur + 1
      let _tr := mem16 buf cur
      let cur := cur + 2
      if cur ≠ Config.frameLen then .err .incompleteParse
      else .ok { cur := substituteQuad nan cf ce, held := substituteQuad nan hf he, meter := meter, hold := hold,
                 captime := now }

/-- A buffer at the decoder port: one evaluation of Decode, its result on the port, nothing else changed. -/
def decodeAtPort (buf : List Byte) (now : Time) (s : State) : State :=
  portAnswer (decodeFrame Config.nanSentinel buf now) s

/-- FRAME56. -/
def execFrame56 (buf : List Byte) (now : Time) (s : State) : Host.Outcome State Fault Refusal :=
  .next (decodeAtPort buf now s)

/-- FRAME56.VALID. -/
def execFrame56Valid (buf : List Byte) (now : Time) (s : State) : Host.Outcome State Fault Refusal :=
  .next (decodeAtPort buf now s)

/-- FRAME56.CURRENT. -/
def execFrame56Current (buf : List Byte) (now : Time) (s : State) : Host.Outcome State Fault Refusal :=
  .next (decodeAtPort buf now s)

/-- FRAME56.MAXIMUM. -/
def execFrame56Maximum (buf : List Byte) (now : Time) (s : State) : Host.Outcome State Fault Refusal :=
  .next (decodeAtPort buf now s)

/-- FRAME56.MINIMUM. -/
def execFrame56Minimum (buf : List Byte) (now : Time) (s : State) : Host.Outcome State Fault Refusal :=
  .next (decodeAtPort buf now s)

/-- FRAME56.AVERAGE. -/
def execFrame56Average (buf : List Byte) (now : Time) (s : State) : Host.Outcome State Fault Refusal :=
  .next (decodeAtPort buf now s)

end Sys2Proof.Machine
end

