-- ==== Sys2Proof/Machine/PayloadRead.lean ====
section
/-! DEFINITION. RX in the phase PAYLOAD: assembly of the frame and hand-over to the decoder (spec/42_payload_read.md
R77). -/

namespace Sys2Proof.Machine

/-- `BUF[CNT] <- b; CNT <- CNT + 1`. -/
def storePayload (s : State) (b : Byte) : State := (memWrite s s.cnt b).setCnt (s.cnt + 1)

/-- The step: store, and with the 56th byte decode and deliver, all at once. -/
def rxPayloadState (s : State) (b : Byte) (now : Time) : State :=
  if s.cnt + 1 = Config.frameLen then
    deliver (decodeFrame Config.nanSentinel (bufBytes (storePayload s b) 0 Config.frameLen) now) (storePayload s b)
  else storePayload s b

/-- RX.PAYLOAD; the buffer has no byte 56 (spec/20_memory.md R30). -/
def execRxPayload (b : Byte) (now : Time) (s : State) : Host.Outcome State Fault Refusal :=
  if s.phase = .payload ∧ Config.frameLen ≤ s.cnt then .fault (.bufAddress s.cnt)
  else inPhase .payload (transportRefusal s) s (rxPayloadState s b now)

end Sys2Proof.Machine
end

