-- ==== Sys2Proof/Machine/SyncScan.lean ====
section
/-! DEFINITION. RX in the phase SYNC: the sync-marker detector (spec/41_sync_scan.md R70). -/

namespace Sys2Proof.Machine

/-- The window after the byte `b`: the bytes held and `b`, the oldest dropped once five are held. -/
def syncWindow (s : State) (b : Byte) : List Byte :=
  if s.cnt < Config.markerLen then bufBytes s 0 s.cnt ++ [b] else bufBytes s 1 4 ++ [b]

/-- Store the window: one byte at CNT while it fills, the shift of five bytes after that (spec/20_memory.md R37). -/
def storeWindow (s : State) (b : Byte) : State :=
  if s.cnt < Config.markerLen then (memWrite s s.cnt b).setCnt (s.cnt + 1)
  else s.setBuf (Memory.writeList s.buf 0 (syncWindow s b))

/-- The step: on a match the phase becomes PAYLOAD and the timer restarts. -/
def rxSyncState (s : State) (b : Byte) : State :=
  if syncWindow s b = Config.marker then ((storeWindow s b).setPhase .payload).setTimer s.payloadLimit
  else storeWindow s b

/-- RX.SYNC. -/
def execRxSync (b : Byte) (s : State) : Host.Outcome State Fault Refusal :=
  inPhase .sync (transportRefusal s) s (rxSyncState s b)

end Sys2Proof.Machine
end

