-- ==== Sys2Proof/Machine/Transport.lean ====
section
/-! DEFINITION. Transport time-out, transport error and timer tick (spec/43_transport_events_and_timer.md R82 to R87). -/

namespace Sys2Proof.Machine

/-- A transport time-out in a phase whose kind is `k`, under a policy (spec/43_transport_events_and_timer.md R82, R83). -/
def ttoState (policy : TtoPolicy) (k : ErrorKind) (s : State) : State :=
  match policy with
  | .endPhase => raise k s
  | .tolerate => s

/-- A tick in a phase whose kind is `k`: count down, or end the phase when nothing is left
(spec/43_transport_events_and_timer.md R85, R86). -/
def tickState (k : ErrorKind) (s : State) : State :=
  if s.timer ≠ 0 then s.setTimer (s.timer - 1) else raise k s

/-- TTO.SYNC. -/
def execTtoSync (s : State) : Host.Outcome State Fault Refusal :=
  inPhase .sync (transportRefusal s) s (ttoState Config.ttoPolicy .syncTimeout s)

/-- TTO.PAYLOAD. -/
def execTtoPayload (s : State) : Host.Outcome State Fault Refusal :=
  inPhase .payload (transportRefusal s) s (ttoState Config.ttoPolicy .payloadTimeout s)

/-- TERR.SYNC: the payload is delivered unchanged (spec/43_transport_events_and_timer.md R84). -/
def execTerrSync (e : IoCode) (s : State) : Host.Outcome State Fault Refusal :=
  inPhase .sync (transportRefusal s) s (raise (.io e) s)

/-- TERR.PAYLOAD. -/
def execTerrPayload (e : IoCode) (s : State) : Host.Outcome State Fault Refusal :=
  inPhase .payload (transportRefusal s) s (raise (.io e) s)

/-- TICK.SYNC. -/
def execTickSync (s : State) : Host.Outcome State Fault Refusal :=
  inPhase .sync .phaseMismatch s (tickState .syncTimeout s)

/-- TICK.PAYLOAD. -/
def execTickPayload (s : State) : Host.Outcome State Fault Refusal :=
  inPhase .payload .phaseMismatch s (tickState .payloadTimeout s)

/-- TICK.IDLE: nothing changes (spec/43_transport_events_and_timer.md R87). -/
def execTickIdle (s : State) : Host.Outcome State Fault Refusal := inPhase .idle .phaseMismatch s s

end Sys2Proof.Machine
end

