-- ==== Sys2Proof/Machine/Dispatch.lean ====
section
/-! DEFINITION. One arm per operation: the call of its meaning. -/

namespace Sys2Proof.Machine

def exec (i : Instr) (s : State) : Host.Outcome State Fault Refusal :=
  match i with
  | .reset => Sys2Proof.Machine.execReset s
  | .start => Sys2Proof.Machine.execStart s
  | .rxSync b => Sys2Proof.Machine.execRxSync b s
  | .rxPayload b now => Sys2Proof.Machine.execRxPayload b now s
  | .ttoSync => Sys2Proof.Machine.execTtoSync s
  | .ttoPayload => Sys2Proof.Machine.execTtoPayload s
  | .terrSync e => Sys2Proof.Machine.execTerrSync e s
  | .terrPayload e => Sys2Proof.Machine.execTerrPayload e s
  | .tickSync => Sys2Proof.Machine.execTickSync s
  | .tickPayload => Sys2Proof.Machine.execTickPayload s
  | .tickIdle => Sys2Proof.Machine.execTickIdle s
  | .frame56 buf now => Sys2Proof.Machine.execFrame56 buf now s
  | .frame56Valid buf now => Sys2Proof.Machine.execFrame56Valid buf now s
  | .frame56Current buf now => Sys2Proof.Machine.execFrame56Current buf now s
  | .frame56Maximum buf now => Sys2Proof.Machine.execFrame56Maximum buf now s
  | .frame56Minimum buf now => Sys2Proof.Machine.execFrame56Minimum buf now s
  | .frame56Average buf now => Sys2Proof.Machine.execFrame56Average buf now s
  | .fieldSync v => Sys2Proof.Machine.execFieldSync v s
  | .fieldCf0 v => Sys2Proof.Machine.execFieldCf0 v s
  | .fieldCf1 v => Sys2Proof.Machine.execFieldCf1 v s
  | .fieldCf2 v => Sys2Proof.Machine.execFieldCf2 v s
  | .fieldCf3 v => Sys2Proof.Machine.execFieldCf3 v s
  | .fieldCe0 v => Sys2Proof.Machine.execFieldCe0 v s
  | .fieldCe1 v => Sys2Proof.Machine.execFieldCe1 v s
  | .fieldCe2 v => Sys2Proof.Machine.execFieldCe2 v s
  | .fieldCe3 v => Sys2Proof.Machine.execFieldCe3 v s
  | .fieldHf0 v => Sys2Proof.Machine.execFieldHf0 v s
  | .fieldHf1 v => Sys2Proof.Machine.execFieldHf1 v s
  | .fieldHf2 v => Sys2Proof.Machine.execFieldHf2 v s
  | .fieldHf3 v => Sys2Proof.Machine.execFieldHf3 v s
  | .fieldHe0 v => Sys2Proof.Machine.execFieldHe0 v s
  | .fieldHe1 v => Sys2Proof.Machine.execFieldHe1 v s
  | .fieldHe2 v => Sys2Proof.Machine.execFieldHe2 v s
  | .fieldHe3 v => Sys2Proof.Machine.execFieldHe3 v s
  | .fieldMt v => Sys2Proof.Machine.execFieldMt v s
  | .fieldUnk v => Sys2Proof.Machine.execFieldUnk v s
  | .fieldHc v => Sys2Proof.Machine.execFieldHc v s
  | .fieldTr v now => Sys2Proof.Machine.execFieldTr v now s
  | .hcCurrent => Sys2Proof.Machine.execHcCurrent s
  | .hcMaximum => Sys2Proof.Machine.execHcMaximum s
  | .hcMinimum => Sys2Proof.Machine.execHcMinimum s
  | .hcAverage => Sys2Proof.Machine.execHcAverage s
  | .hcInvalid hc => Sys2Proof.Machine.execHcInvalid hc s

end Sys2Proof.Machine
end

