-- ==== Sys2Proof/Machine/Fetch.lean ====
section
/-! DEFINITION. What a step takes from the ports: the next activity, the bytes it presents and where, and how a word is
placed there (log 1, 14, 23). -/

namespace Sys2Proof.Machine

/-- What the next port activity asks for. -/
inductive Fetched where
  /-- nothing is pending: the block waits -/
  | wait
  /-- a host write of a limit -/
  | limit (r : LimitReg) (v : Nat) (s : State)
  /-- bytes presented at a port, with what the wires hold and the state once the bytes are taken -/
  | word (p : Port) (x : Wires) (bytes : List Byte) (s : State)
  /-- the activity is one that cannot be presented -/
  | none (r : Refusal)
  deriving DecidableEq, Repr

/-- The bytes of an event in the current phase: PHASE and EV as the operation byte, then the received byte. RX takes the first
byte of the stream while the block requests bytes, and nothing else takes any (spec/20_memory.md R33). -/
def fetchEvent (ev : BitVec 6) (x : Wires) (s : State) : Fetched :=
  match eventOf ev with
  | some .rx =>
    if s.phase = .idle then .word .event x [opByte s.phase ev] s
    else
      (match s.stream with
      | [] => .none .noByte
      | b :: rest =>
        .word .event x [opByte s.phase ev, b] ((s.setStream rest).setPos (s.pos + 1)))
  | some .reset | some .start | some .tto | some .terr | some .tick | none => .word .event x [opByte s.phase ev] s

/-- How many bytes the field that begins at an offset has (spec/30_encoding.md R46). -/
def fieldWidth : Nat → Option Nat
  | 0 => some 5
  | 5 | 9 | 13 | 17 | 25 | 29 | 33 | 37 | 45 | 49 => some 4
  | 21 | 22 | 23 | 24 | 41 | 42 | 43 | 44 | 53 => some 1
  | 54 => some 2
  | _ => none

/-- The bytes of the field at an offset, exactly as many as it has (log 12). -/
def fetchField (off : Nat) (bytes : List Byte) (now : Time) (s : State) : Fetched :=
  match fieldWidth off with
  | none => .none .noFieldAtOffset
  | some n => if bytes.length = n then .word (.field off) (Wires.ofClock now) bytes s else .none .fieldLength

/-- The activity `x`, with the state it meets. A buffer at the decoder port may have any length: Decode is defined on every
one (spec/44_decoder.md R92, R107). A frame and its fields read no error payload, a code no wire. -/
def fetchInput (x : Input) (s : State) : Fetched :=
  match x with
  | .event ev now e => fetchEvent ev { now := now, err := e } s
  | .frame view buf now => .word (.frame view buf.length) (Wires.ofClock now) buf s
  | .field off bytes now => fetchField off bytes now s
  | .code hc => .word .code Wires.any [hc] s
  | .writeSyncLimit v => .limit .sync v s
  | .writePayloadLimit v => .limit .payload v s

/-- The next activity, taken from the queue. -/
def fetch (s : State) : Fetched :=
  match s.inputs with
  | [] => .wait
  | x :: rest => fetchInput x (s.setInputs rest)

/-- The refusal for bits that are no operation. -/
def rejection : Reject → Refusal
  | .truncated => .truncated
  | .notOneHot => .notOneHot
  | .noSuchPhase => .noSuchPhase
  | .startWhileBusy => .startWhileBusy
  | .notEnabled => .notEnabled
  | .noFieldAtOffset => .noFieldAtOffset
  | .notInRow => .notInRow

/-- An activity before all others. -/
def State.pushInput (s : State) (x : Input) : State := s.setInputs (x :: s.inputs)

/-- Place an operation byte: its phase bits are PHASE, its event bits the next event, the byte RX carries (0)
the next byte of the stream; no bit of the word is the clock or the error payload (log 23). -/
def placeEvent (w : Nat) (s : State) : State :=
  let ev := BitVec.ofNat 6 w
  let s := s.setPhase ((phaseOf (BitVec.ofNat 2 (w / 64))).getD s.phase)
  let s := if ev = eventCode .rx then s.setStream (0 :: s.stream) else s
  s.pushInput (.event ev Wires.any.now Wires.any.err)

/-- Place a word of `nbits` bits at a port. -/
def placeAt (p : Port) (nbits w : Nat) (s : State) : State :=
  match p with
  | .event => placeEvent w s
  | .frame view n => s.pushInput (.frame view ((tableBytes w).take n) Wires.any.now)
  | .field off => s.pushInput (.field off ((tableBytes w).take (nbits / 8)) Wires.any.now)
  | .code => s.pushInput (.code (BitVec.ofNat 8 w))

/-- Place a table word where the next step fetches. -/
def placeWord (nbits w : Nat) (s : State) : State :=
  match tablePort nbits w with
  | some p => placeAt p nbits w s
  | none => s

end Sys2Proof.Machine
end

