-- ==== Sys2Proof/Machine/Step.lean ====
section
/-! DEFINITION. One step: the next activity at the block's ports is taken and done, whole (spec/20_memory.md R39). -/

namespace Sys2Proof.Machine

/-- Take the next port activity: wait where there is none, do the host's register write, or decode the presented bytes
and run the operation. -/
def step (s : State) : Host.Outcome State Fault Refusal :=
  match fetch s with
  | .wait => .next s
  | .limit r v s' => writeLimit r v s'
  | .none r => .refused r
  | .word p x bytes s' =>
    match decode p x bytes with
    | .ok i _ => exec i s'
    | .reject r => .refused (rejection r)

/-- `s` with a table word where the next step fetches. -/
def State.withFetchWord (s : State) (nbits w : Nat) : State := placeWord nbits w s

end Sys2Proof.Machine
end

