-- ==== Sys2Proof/Safety.lean ====
section
/-! DEFINITION. The terms the claims use: the invariant of spec/10_state.md R27, sequences of operations, the detector's
prefix counter, and the bound on ticks. -/

namespace Sys2Proof.Machine

/-- The results the reader never delivers (spec/10_state.md R27 item 6). -/
def portOnly : Res → Bool
  | .err .wrongSize | .err .badSync | .err .incompleteParse => true
  | .none | .ok _ | .err .syncTimeout | .err .payloadTimeout | .err (.io _) | .err .invalidHoldType => false

/-- What holds in every state a run reaches: the canonical form of the buffer, the ranges of CNT, TIMER and the limits
(spec/10_state.md R13, R15, R16), and items 1, 2, 3, 5 and 6 of spec/10_state.md R27; beside it, that IncompleteParse is not
the decoder port's answer (spec/44_decoder.md R105). -/
structure Inv (s : State) : Prop where
  buf_wf : Memory.wf s.buf = true
  cnt_le : s.cnt ≤ Config.frameLen
  timer_lt : s.timer < 2 ^ Config.timerW
  syncLimit_lt : s.syncLimit < 2 ^ Config.timerW
  payloadLimit_lt : s.payloadLimit < 2 ^ Config.timerW
  sync_cnt : s.phase = .sync → s.cnt ≤ Config.markerLen
  sync_unmatched : s.phase = .sync → s.cnt = Config.markerLen → bufBytes s 0 5 ≠ Config.marker
  payload_cnt : s.phase = .payload → Config.markerLen ≤ s.cnt ∧ s.cnt < Config.frameLen
  payload_marker : s.phase = .payload → bufBytes s 0 5 = Config.marker
  written : s.phase ≠ .idle → ∀ i, i < s.cnt → Memory.read s.buf i ≠ none
  busy_res : s.phase ≠ .idle → s.res = .none
  reader_res : portOnly s.res = false
  port_out : s.port.out ≠ .err .incompleteParse

/-- Every byte of BUF is as it was. -/
def KeepsBuf (s t : State) : Prop := ∀ a, Memory.read t.buf a = Memory.read s.buf a

/-- Both limit registers are as they were. -/
def KeepsLimits (s t : State) : Prop := t.syncLimit = s.syncLimit ∧ t.payloadLimit = s.payloadLimit

/-- The decoder port, the transport's bytes, the stream position and the pending port activity are as they were. Fields of the
environment and of the model: that an event leaves the port and the queue alone is the model's choice (log 11, 1). -/
def KeepsEnv (s t : State) : Prop :=
  t.port = s.port ∧ t.stream = s.stream ∧ t.pos = s.pos ∧ t.inputs = s.inputs

/-- The read has ended, and nothing but PHASE and RES has changed (spec/60_exceptions.md R117). -/
def EndedOnly (s t : State) : Prop :=
  t.phase = .idle ∧ t.cnt = s.cnt ∧ t.timer = s.timer ∧ KeepsBuf s t ∧ KeepsLimits s t ∧ KeepsEnv s t

/-- Nothing but the decoder port has changed. -/
def KeepsBlock (s t : State) : Prop :=
  t.phase = s.phase ∧ t.cnt = s.cnt ∧ KeepsBuf s t ∧ t.timer = s.timer ∧ KeepsLimits s t ∧ t.res = s.res ∧
    t.draws = s.draws ∧ t.stream = s.stream ∧ t.pos = s.pos ∧ t.inputs = s.inputs

/-- The extraction of a field answers `o`, and nothing else changes. -/
def FieldAnswers (o : FieldOut) (s t : State) : Prop :=
  t.port = { s.port with field := o } ∧ KeepsBlock s t

/-- The 32-bit value of the four bytes from `a` on, written out (spec/20_memory.md R35). -/
def patternAt (buf : List Byte) (a : Nat) : Pattern :=
  BitVec.ofNat 32 ((buf.getD a 0).toNat + 256 * (buf.getD (a + 1) 0).toNat + 65536 * (buf.getD (a + 2) 0).toNat
    + 16777216 * (buf.getD (a + 3) 0).toNat)

/-- Operations one after another, stopping where one does not answer a next state. -/
def execAll : List Instr → State → Host.Outcome State Fault Refusal
  | [], s => .next s
  | i :: is, s =>
    match exec i s with
    | .next t => execAll is t
    | .fault f => .fault f
    | .refused r => .refused r

/-- `RXS b0 b1 … bk` in the phase SYNC (spec/30_encoding.md R61). -/
def rxSyncs (bs : List Byte) : List Instr := bs.map Instr.rxSync

/-- `RXS b0 b1 … bk` in the phase PAYLOAD, each with the clock it would sample. -/
def rxPayloads (bs : List (Byte × Time)) : List Instr := bs.map fun p => Instr.rxPayload p.1 p.2

/-- RX activity at the event port, one entry a byte, with what the wires hold in each step. -/
def rxInputs (xs : List Wires) : List Input := xs.map fun x => Input.event (eventCode .rx) x.now x.err

/-- The prefix counter of spec/41_sync_scan.md R72: how many marker bytes are matched so far. -/
def prefixCounter (m : Nat) (b : Byte) : Nat :=
  if Config.marker[m]? = some b then m + 1 else if b = 0xAA#8 then 1 else 0

/-- How many more TICK events the attempt in progress can take (spec/43_transport_events_and_timer.md R89). -/
def tickBudget (s : State) : Nat :=
  match s.phase with
  | .idle => 0
  | .sync => s.timer + 1 + (s.payloadLimit + 1)
  | .payload => s.timer + 1

/-- The two ticks of a phase in which the timer runs. -/
def isBusyTick (i : Instr) : Bool := decide (i = .tickSync ∨ i = .tickPayload)

/-- The rows of the decoder port: frames, fields, codes. They are no events (spec/30_encoding.md R56). -/
def isPortOp (i : Instr) : Bool := decide (portOf i ≠ .event)

/-- The fields of FRAME56 in frame order, offset and length (spec/30_encoding.md R46). -/
def fieldTable : List (Nat × Nat) :=
  [(0, 5), (5, 4), (9, 4), (13, 4), (17, 4), (21, 1), (22, 1), (23, 1), (24, 1), (25, 4), (29, 4), (33, 4), (37, 4),
    (41, 1), (42, 1), (43, 1), (44, 1), (45, 4), (49, 4), (53, 1), (54, 2)]

/-- The fields of a buffer presented one by one in frame order. -/
def fieldInputs (buf : List Byte) (now : Time) : List Input :=
  fieldTable.map fun p => Input.field p.1 ((buf.drop p.1).take p.2) now

/-- The state after `n` steps and what the extraction of a field had answered after each of them; none where a step answers
no next state. -/
def fieldRun : Nat → State → Option (List FieldOut × State)
  | 0, s => some ([], s)
  | n + 1, s =>
    match step s with
    | .next t => (fieldRun n t).map fun p => (t.port.field :: p.1, p.2)
    | .fault _ => none
    | .refused _ => none

/-- The temporaries of one evaluation of Decode (spec/10_state.md R26): a term of the claims, no part of State. -/
structure Locals where
  cf : Quad Pattern
  ce : Quad Byte
  hf : Quad Pattern
  he : Quad Byte
  meter : Pattern
  hold : HoldType
  deriving DecidableEq, Repr

/-- Before the first field is read. -/
def Locals.init : Locals :=
  { cf := ⟨0, 0, 0, 0⟩, ce := ⟨0, 0, 0, 0⟩, hf := ⟨0, 0, 0, 0⟩, he := ⟨0, 0, 0, 0⟩, meter := 0, hold := .current }

/-- What Decode makes of the answers of its fields in frame order (spec/44_decoder.md R91): the first error ends it, the
clock ends it with the reading, and a frame that ends before is parsed incompletely. -/
def assemble (nan : Pattern) (l : Locals) : List FieldOut → Res
  | [] => .err .incompleteParse
  | .badSync :: _ => .err .badSync
  | .invalidHoldType :: _ => .err .invalidHoldType
  | .captime now :: _ =>
    .ok { cur := Quad.ofFn fun i => if l.ce.get i ≠ 0 then nan else l.cf.get i,
          held := Quad.ofFn fun i => if l.he.get i ≠ 0 then nan else l.hf.get i,
          meter := l.meter, hold := l.hold, captime := now }
  | .cf i v :: os => assemble nan { l with cf := l.cf.set i v } os
  | .ce i v :: os => assemble nan { l with ce := l.ce.set i v } os
  | .hf i v :: os => assemble nan { l with hf := l.hf.set i v } os
  | .he i v :: os => assemble nan { l with he := l.he.set i v } os
  | .meter v :: os => assemble nan { l with meter := v } os
  | .hold h :: os => assemble nan { l with hold := h } os
  | .none :: os | .marker :: os | .discarded :: os => assemble nan l os

end Sys2Proof.Machine
end

