-- ==== Sys2Proof/Certificates/Slice0/Obligations.lean ====
section
/-! DEFINITION. The statements about the model, each a proposition; OBLIGATIONS.json lists them with the rules they
formalise. -/

open Sys2Proof Sys2Proof.Machine

/-! ### Reset and the host's operations -/

/-- The machine after reset, spec/70_reset_and_hazards.md R131: the values the spec gives, and the flags they make. -/
def Obligations.ResetLeavesTheSpecifiedValues : Prop :=
  State.reset.phase = .idle ∧ State.reset.cnt = 0 ∧ State.reset.timer = 0 ∧ State.reset.res = .none ∧
    State.reset.syncLimit = 5 * Config.tickHz ∧ State.reset.payloadLimit = 5 * Config.tickHz

/-- spec/40_host_commands.md R63: RESET is taken in every state, leaves the values of the rule and clears the flags; the
consumed bytes stay consumed. BUF and the result registers are unspecified afterwards. What RESET leaves of the model's own
fields is in DecoderPortAndEventsAreApart. -/
def Obligations.ResetEventTakenInEveryState : Prop :=
  ∀ s : State, ∃ t, exec .reset s = .next t ∧ t.phase = .idle ∧ t.cnt = 0 ∧ t.timer = 0 ∧ t.res = .none ∧
    t.syncLimit = 5 * Config.tickHz ∧ t.payloadLimit = 5 * Config.tickHz ∧
    t.busy = false ∧ t.rxReady = false ∧ t.done = false ∧ t.stream = s.stream ∧ t.pos = s.pos

/-- spec/40_host_commands.md R64: START from IDLE begins a read; BUF keeps its bytes, no byte is consumed. -/
def Obligations.StartBeginsARead : Prop :=
  ∀ s : State, s.phase = .idle → ∃ t, exec .start s = .next t ∧ t.phase = .sync ∧ t.cnt = 0 ∧
    t.timer = s.syncLimit ∧ t.res = .none ∧ t.busy = true ∧ t.rxReady = true ∧ t.done = false ∧
    KeepsBuf s t ∧ KeepsLimits s t ∧ KeepsEnv s t

/-- spec/40_host_commands.md R65: START with PHASE not IDLE has no meaning. -/
def Obligations.StartWhileBusyIsRefused : Prop :=
  ∀ s : State, s.phase ≠ .idle → exec .start s = .refused .startWhileBusy

/-- spec/40_host_commands.md R67: a host write in IDLE changes the written limit and nothing else. That the write is taken
from a queue of port activity is the model's choice (log 1), and so is the bound on the number (log 19). -/
def Obligations.HostWriteChangesOneLimit : Prop :=
  ∀ (s : State) (v : Nat) (rest : List Input), s.phase = .idle → v < 2 ^ Config.timerW →
    (s.inputs = .writeSyncLimit v :: rest → step s = .next { s with syncLimit := v, inputs := rest }) ∧
    (s.inputs = .writePayloadLimit v :: rest → step s = .next { s with payloadLimit := v, inputs := rest })

/-- spec/70_reset_and_hazards.md R136: a write of either limit while a read is in flight is refused. -/
def Obligations.LimitWriteWhileBusyIsRefused : Prop :=
  ∀ (s : State) (r : LimitReg) (v : Nat), s.busy = true → writeLimit r v s = .refused .limitWriteWhileBusy

/-- spec/40_host_commands.md R66: what the host reads out while it is meaningful. -/
def Obligations.ReadOutGivesTheResult : Prop :=
  ∀ s : State,
    (∀ e, s.res = .err (.io e) → readResIo s = e ∧ s.res.kindCode = 4 ∧ s.done = true) ∧
    (∀ r, s.res = .ok r → (∀ i, readCur s i = r.cur.get i) ∧ (∀ i, readHeld s i = r.held.get i) ∧
      readMeter s = r.meter ∧ readHold s = r.hold ∧ readCaptime s = r.captime ∧ s.res.kindCode = 1 ∧ s.done = true)

/-- spec/30_encoding.md R57 to R59: the codes of phase, result and hold type, the spec's own numbers (its decisions D13
and D14). -/
def Obligations.PhaseAndResultCodes : Prop :=
  (phaseCode .idle = 0 ∧ phaseCode .sync = 1 ∧ phaseCode .payload = 2 ∧ phaseOf 3 = none) ∧
  (Res.kindCode .none = 0 ∧ (∀ r, Res.kindCode (.ok r) = 1) ∧ Res.kindCode (.err .syncTimeout) = 2 ∧
    Res.kindCode (.err .payloadTimeout) = 3 ∧ (∀ e, Res.kindCode (.err (.io e)) = 4) ∧
    Res.kindCode (.err .wrongSize) = 5 ∧ Res.kindCode (.err .badSync) = 6 ∧
    Res.kindCode (.err .invalidHoldType) = 7 ∧ Res.kindCode (.err .incompleteParse) = 8) ∧
  (∀ hc h, holdOf hc = some h → (holdCode h).toNat = hc.toNat)

/-! ### The detector -/

/-- spec/41_sync_scan.md R70, whole: the window fills or slides, the phase and the timer follow the comparison. -/
def Obligations.RxSyncSlidesTheWindow : Prop :=
  ∀ (s : State) (b : Byte), s.phase = .sync →
    ∃ t w, w = (if s.cnt < 5 then bufBytes s 0 s.cnt ++ [b]
        else [bufByte s 1, bufByte s 2, bufByte s 3, bufByte s 4, b]) ∧
      exec (.rxSync b) s = .next t ∧
      t.cnt = (if s.cnt < 5 then s.cnt + 1 else s.cnt) ∧
      (∀ a, Memory.read t.buf a =
        if s.cnt < 5 then (if a = s.cnt then some b else Memory.read s.buf a)
        else if a < 5 then w[a]? else Memory.read s.buf a) ∧
      (s.cnt ≤ 5 → bufBytes t 0 t.cnt = w) ∧
      (w = [0xAA#8, 0x55#8, 0x00#8, 0x34#8, 0x01#8] → t.phase = .payload ∧ t.timer = s.payloadLimit) ∧
      (w ≠ [0xAA#8, 0x55#8, 0x00#8, 0x34#8, 0x01#8] → t.phase = .sync ∧ t.timer = s.timer) ∧
      t.res = s.res ∧ KeepsLimits s t ∧ KeepsEnv s t

/-- spec/41_sync_scan.md R71, an inference of the spec ("derived: from rule R70"): bytes that hold no marker leave the phase
SYNC, and the next byte ends it exactly when the marker ends there. -/
def Obligations.SyncEndsAtTheFirstMarker : Prop :=
  ∀ (s : State) (bs : List Byte) (b : Byte), s.phase = .sync → s.cnt = 0 → ¬ Config.marker <:+: bs →
    ∃ t u, execAll (rxSyncs bs) s = .next t ∧ t.phase = .sync ∧ exec (.rxSync b) t = .next u ∧
      (u.phase = .payload ↔ Config.marker <:+ bs ++ [b]) ∧
      (u.phase = .payload → u.cnt = 5 ∧ u.timer = s.payloadLimit ∧ bufBytes u 0 5 = Config.marker)

/-- spec/41_sync_scan.md R72, an inference of the spec ("derived: from rule R70, rule R71"): the prefix counter matches where the window does, and counts the longest prefix of the marker
that ends the bytes received. -/
def Obligations.PrefixCounterMatchesTheWindow : Prop :=
  ∀ (s : State) (bs : List Byte) (b : Byte), s.phase = .sync → s.cnt = 0 → ¬ Config.marker <:+: bs →
    ∃ t u m, m = bs.foldl prefixCounter 0 ∧ execAll (rxSyncs bs) s = .next t ∧ exec (.rxSync b) t = .next u ∧
      (u.phase = .payload ↔ prefixCounter m b = 5) ∧ m < 5 ∧
      Config.marker.take m <:+ bs ∧ ∀ k, m < k → k ≤ 5 → ¬ Config.marker.take k <:+ bs

/-- spec/41_sync_scan.md R73, an inference of the spec ("derived: from rule R71"), without ticks in between: noise of any
length without a marker, then a well-formed frame, are consumed exactly and the frame's reading is delivered. The queue of
events and the stream in State are the model's choice (log 1, 8). -/
def Obligations.FrameAfterNoiseIsRead : Prop :=
  ∀ (s : State) (noise frame rest : List Byte) (xs : List Wires) (x : Wires) (more : List Input),
    s.phase = .sync → s.cnt = 0 → frame.length = 56 → frame.take 5 = Config.marker →
    (frame.getD 53 0).toNat ≤ 3 → ¬ Config.marker <:+: noise ++ frame.take 4 →
    s.stream = noise ++ frame ++ rest → xs.length + 1 = noise.length + 56 →
    s.inputs = rxInputs (xs ++ [x]) ++ more →
    ∃ (t : State) (r : Reading), Host.Core.run core (noise.length + 56) s = .next t ∧ t.phase = .idle ∧ t.cnt = 56 ∧
      t.res = .ok r ∧ decodeFrame Config.nanSentinel frame x.now = .ok r ∧
      t.stream = rest ∧ t.pos = s.pos + (noise.length + 56) ∧ t.inputs = more

/-- spec/41_sync_scan.md R74, an inference of the spec ("derived: from rule R70"): fewer than five bytes after START never match, whatever BUF held before. -/
def Obligations.StartCarriesNothingOver : Prop :=
  ∀ (s : State) (bs : List Byte), s.phase = .idle → bs.length < 5 →
    ∃ t, execAll (.start :: rxSyncs bs) s = .next t ∧ t.phase = .sync ∧ t.cnt = bs.length ∧
      bufBytes t 0 t.cnt = bs ∧ t.timer = s.syncLimit

/-! ### The payload -/

/-- spec/42_payload_read.md R77, whole: store, and with the 56th byte decode and deliver in the same step. -/
def Obligations.RxPayloadStoresAndDelivers : Prop :=
  ∀ (s : State) (b : Byte) (now : Time), s.phase = .payload → s.cnt ≤ 55 →
    ∃ t, exec (.rxPayload b now) s = .next t ∧ t.cnt = s.cnt + 1 ∧ t.timer = s.timer ∧
      (∀ a, Memory.read t.buf a = if a = s.cnt then some b else Memory.read s.buf a) ∧
      (s.cnt < 55 → t.phase = .payload ∧ t.res = s.res) ∧
      (s.cnt = 55 → t.phase = .idle ∧ t.res = decodeFrame Config.nanSentinel (bufBytes s 0 55 ++ [b]) now ∧
        t.busy = false ∧ t.rxReady = false ∧ t.done = true) ∧
      KeepsLimits s t ∧ KeepsEnv s t

/-- spec/42_payload_read.md R79, an inference of the spec ("derived: from rule R77"): no byte value restarts the scan or shortens the frame, which is the bytes from the marker
on, whatever they are. -/
def Obligations.PayloadIsNotScanned : Prop :=
  ∀ (s : State) (bs : List (Byte × Time)), s.phase = .payload →
    (s.cnt + bs.length ≤ 55 → ∃ t, execAll (rxPayloads bs) s = .next t ∧ t.phase = .payload ∧
      t.cnt = s.cnt + bs.length ∧ t.timer = s.timer) ∧
    (∀ b now, s.cnt + bs.length = 55 → ∃ t, execAll (rxPayloads (bs ++ [(b, now)])) s = .next t ∧
      t.phase = .idle ∧ t.cnt = 56 ∧
      t.res = decodeFrame Config.nanSentinel (bufBytes s 0 s.cnt ++ bs.map Prod.fst ++ [b]) now)

/-- spec/42_payload_read.md R80, an inference of the spec ("derived: from rule R78"): through the reader the only decode error is InvalidHoldType, exactly when BUF[53] is
above 3; the read ends with it. -/
def Obligations.ReaderReportsOnlyBadHoldTypes : Prop :=
  ∀ (s : State) (b : Byte) (now : Time), Inv s → s.phase = .payload → s.cnt = 55 →
    ∃ t, exec (.rxPayload b now) s = .next t ∧ t.phase = .idle ∧
      t.res = decodeFrame Config.nanSentinel (bufBytes s 0 55 ++ [b]) now ∧
      t.res ≠ .err .wrongSize ∧ t.res ≠ .err .badSync ∧ t.res ≠ .err .incompleteParse ∧
      (t.res = .err .invalidHoldType ↔ 3 < (bufByte s 53).toNat) ∧
      ((bufByte s 53).toNat ≤ 3 → ∃ r, t.res = .ok r)

/-! ### Transport time-out, transport error, tick -/

/-- spec/43_transport_events_and_timer.md R82, under whichever policy holds. -/
def Obligations.TransportTimeoutInSync : Prop :=
  ∀ s : State, s.phase = .sync → ∃ t, exec .ttoSync s = .next t ∧
    (match Config.ttoPolicy with
    | .endPhase => t.res = .err .syncTimeout ∧ EndedOnly s t ∧ t.busy = false ∧ t.done = true
    | .tolerate => t = s)

/-- spec/43_transport_events_and_timer.md R83, under whichever policy holds. -/
def Obligations.TransportTimeoutInPayload : Prop :=
  ∀ s : State, s.phase = .payload → ∃ t, exec .ttoPayload s = .next t ∧
    (match Config.ttoPolicy with
    | .endPhase => t.res = .err .payloadTimeout ∧ EndedOnly s t ∧ t.busy = false ∧ t.done = true
    | .tolerate => t = s)

/-- spec/43_transport_events_and_timer.md R84: the payload is delivered unchanged in both phases, and read out so. -/
def Obligations.TransportErrorIsDelivered : Prop :=
  ∀ (s : State) (e : IoCode),
    (s.phase = .sync → ∃ t, exec (.terrSync e) s = .next t ∧ t.res = .err (.io e) ∧ readResIo t = e ∧
      EndedOnly s t ∧ t.busy = false ∧ t.done = true) ∧
    (s.phase = .payload → ∃ t, exec (.terrPayload e) s = .next t ∧ t.res = .err (.io e) ∧ readResIo t = e ∧
      EndedOnly s t ∧ t.busy = false ∧ t.done = true)

/-- spec/43_transport_events_and_timer.md R85: a tick counts down, or ends the phase with SyncTimeout. -/
def Obligations.TickInSyncCountsOrExpires : Prop :=
  ∀ s : State, s.phase = .sync → ∃ t, exec .tickSync s = .next t ∧
    (s.timer ≠ 0 → t = { s with timer := s.timer - 1 }) ∧
    (s.timer = 0 → t.res = .err .syncTimeout ∧ EndedOnly s t ∧ t.busy = false ∧ t.done = true)

/-- spec/43_transport_events_and_timer.md R86: the same in PAYLOAD, with PayloadTimeout. -/
def Obligations.TickInPayloadCountsOrExpires : Prop :=
  ∀ s : State, s.phase = .payload → ∃ t, exec .tickPayload s = .next t ∧
    (s.timer ≠ 0 → t = { s with timer := s.timer - 1 }) ∧
    (s.timer = 0 → t.res = .err .payloadTimeout ∧ EndedOnly s t ∧ t.busy = false ∧ t.done = true)

/-- spec/43_transport_events_and_timer.md R87: a tick in IDLE changes nothing. -/
def Obligations.TickInIdleChangesNothing : Prop :=
  ∀ s : State, s.phase = .idle → exec .tickIdle s = .next s

/-- spec/43_transport_events_and_timer.md R90: RX, TTO and TERR have no transition from IDLE. -/
def Obligations.TransportEventsNotEnabledInIdle : Prop :=
  ∀ s : State, s.phase = .idle →
    ∀ b now e, exec (.rxSync b) s = .refused .notEnabled ∧ exec (.rxPayload b now) s = .refused .notEnabled ∧
      exec .ttoSync s = .refused .notEnabled ∧ exec .ttoPayload s = .refused .notEnabled ∧
      exec (.terrSync e) s = .refused .notEnabled ∧ exec (.terrPayload e) s = .refused .notEnabled

/-- spec/43_transport_events_and_timer.md R85 corner case 1: loaded with L, the timer lets L ticks pass and expires on tick
L + 1, in either phase. -/
def Obligations.DeadlineExpiresOnTickAfterTheLast : Prop :=
  ∀ s : State,
    (s.phase = .sync → (∀ k, k ≤ s.timer →
        execAll (List.replicate k .tickSync) s = .next { s with timer := s.timer - k }) ∧
      ∃ t, execAll (List.replicate (s.timer + 1) .tickSync) s = .next t ∧ t.phase = .idle ∧
        t.res = .err .syncTimeout) ∧
    (s.phase = .payload → (∀ k, k ≤ s.timer →
        execAll (List.replicate k .tickPayload) s = .next { s with timer := s.timer - k }) ∧
      ∃ t, execAll (List.replicate (s.timer + 1) .tickPayload) s = .next t ∧ t.phase = .idle ∧
        t.res = .err .payloadTimeout)

/-! ### Rules of the whole machine -/

/-- spec/43_transport_events_and_timer.md R88: START loads the timer with SYNC_LIMIT and the matching byte with PAYLOAD_LIMIT,
whatever was left of it; nothing else loads it: elsewhere it stays, counts down by one on a tick, or is cleared by RESET. -/
def Obligations.TimerIsLoadedAtTwoPlaces : Prop :=
  ∀ (i : Instr) (s t : State), exec i s = .next t →
    (i = .start → t.timer = s.syncLimit) ∧
    (∀ b, i = .rxSync b → s.phase = .sync → t.phase = .payload → t.timer = s.payloadLimit) ∧
    (i ≠ .start → ¬ (s.phase = .sync ∧ t.phase = .payload) →
      t.timer = s.timer ∨ (i = .reset ∧ t.timer = 0) ∨ (isBusyTick i = true ∧ t.timer + 1 = s.timer))

/-- spec/40_host_commands.md R69, an inference of the spec ("derived: from rules R63, R64, R70"): the transitions of PHASE. -/
def Obligations.PhaseMovesByTheTable : Prop :=
  ∀ (i : Instr) (s t : State), exec i s = .next t →
    t.phase = s.phase ∨ (i = .reset ∧ t.phase = .idle) ∨
      (i = .start ∧ s.phase = .idle ∧ t.phase = .sync) ∨
      (∃ b, i = .rxSync b ∧ s.phase = .sync ∧ t.phase = .payload) ∨
      (s.phase ≠ .idle ∧ t.phase = .idle ∧ t.res ≠ .none)

/-- spec/10_state.md R17, R24: RES changes only at RESET, at START and at the end of a read. -/
def Obligations.ResultChangesOnlyAtTheEndOfARead : Prop :=
  ∀ (i : Instr) (s t : State), exec i s = .next t →
    t.res = s.res ∨ ((i = .reset ∨ i = .start) ∧ t.res = .none) ∨
      (s.phase ≠ .idle ∧ t.phase = .idle ∧ t.res ≠ .none)

/-- spec/60_exceptions.md R117: delivery writes RES and PHASE, the flags follow, nothing else changes. -/
def Obligations.DeliveryWritesResultAndPhase : Prop :=
  ∀ (r : Res) (s : State), (deliver r s).res = r ∧ EndedOnly s (deliver r s) ∧ (deliver r s).busy = false ∧
    (deliver r s).rxReady = false ∧ (r ≠ .none → (deliver r s).done = true)

/-- spec/10_state.md R14, R16: BUF is written by RX alone, the limits by no operation but RESET; RESET leaves BUF
unspecified. -/
def Obligations.OnlyRxWritesTheBuffer : Prop :=
  ∀ (i : Instr) (s t : State), exec i s = .next t → i ≠ .reset →
    KeepsLimits s t ∧ ((∀ b, i ≠ .rxSync b) → (∀ b now, i ≠ .rxPayload b now) → KeepsBuf s t)

/-- First clause, spec/44_decoder.md R91, R107 (Decode is a function of its arguments): the decoder port's operations leave the
block alone. Second clause, spec/20_memory.md R33: no event takes a byte of the stream but RX, whose byte the step has taken
before exec runs. The rest of the second clause is the model's choice: the stream and its position as fields of State (log 8), the
queue of pending inputs, which no event changes (log 1), and the decoder port's answers, which outlast RESET and every other
event (log 11). -/
def Obligations.DecoderPortAndEventsAreApart : Prop :=
  ∀ (i : Instr) (s t : State), exec i s = .next t →
    (isPortOp i = true → KeepsBlock s t) ∧ (isPortOp i = false → KeepsEnv s t)

/-- spec/43_transport_events_and_timer.md R89, an inference of the spec ("derived: from rules R85, R86, R88"): an attempt takes at most SYNC_LIMIT + PAYLOAD_LIMIT + 2 ticks: START sets
that budget, every tick in flight that does not end the attempt uses some of it up, nothing raises it. -/
def Obligations.TicksOfAnAttemptAreBounded : Prop :=
  (∀ s t : State, exec .start s = .next t → tickBudget t = s.syncLimit + s.payloadLimit + 2) ∧
  ∀ (i : Instr) (s t : State), exec i s = .next t → s.phase ≠ .idle →
    tickBudget t ≤ tickBudget s ∧ (isBusyTick i = true → tickBudget t < tickBudget s)

/-! ### The decoder -/

/-- spec/44_decoder.md R92. -/
def Obligations.DecodeChecksTheSize : Prop :=
  ∀ (nan : Pattern) (buf : List Byte) (now : Time), decodeFrame nan buf now = .err .wrongSize ↔ buf.length ≠ 56

/-- spec/44_decoder.md R93. -/
def Obligations.DecodeChecksTheMarker : Prop :=
  ∀ (nan : Pattern) (buf : List Byte) (now : Time), buf.length = 56 →
    (decodeFrame nan buf now = .err .badSync ↔ buf.take 5 ≠ [0xAA#8, 0x55#8, 0x00#8, 0x34#8, 0x01#8])

/-- spec/44_decoder.md R102: the hold-type byte decides between InvalidHoldType and a reading of that type. -/
def Obligations.DecodeMapsTheHoldType : Prop :=
  ∀ (nan : Pattern) (buf : List Byte) (now : Time), buf.length = 56 → buf.take 5 = Config.marker →
    (3 < (buf.getD 53 0).toNat → decodeFrame nan buf now = .err .invalidHoldType) ∧
    (∀ h : HoldType, (buf.getD 53 0).toNat = (holdCode h).toNat →
      ∃ r, decodeFrame nan buf now = .ok r ∧ r.hold = h)

/-- spec/44_decoder.md R94 to R100 and R104, and of R102 which hold type a code is: every field of the reading, from its
bytes. -/
def Obligations.DecodeReadsEveryField : Prop :=
  ∀ (nan : Pattern) (buf : List Byte) (now : Time), buf.length = 56 → buf.take 5 = Config.marker →
    (buf.getD 53 0).toNat ≤ 3 →
    ∃ r, decodeFrame nan buf now = .ok r ∧
      (∀ i : Fin 4, r.cur.get i = if buf.getD (21 + i) 0 ≠ 0 then nan else patternAt buf (5 + 4 * i)) ∧
      (∀ i : Fin 4, r.held.get i = if buf.getD (41 + i) 0 ≠ 0 then nan else patternAt buf (25 + 4 * i)) ∧
      r.meter = patternAt buf 45 ∧ holdOf (buf.getD 53 0) = some r.hold ∧ r.captime = now

/-- spec/44_decoder.md R107, and R105 where the spec infers ("derived: from rule R91") that IncompleteParse is never
returned: one reading or one of three errors. -/
def Obligations.DecodeIsTotalAndComplete : Prop :=
  ∀ (nan : Pattern) (buf : List Byte) (now : Time), decodeFrame nan buf now ≠ .err .incompleteParse ∧
    ((∃ r, decodeFrame nan buf now = .ok r) ∨ decodeFrame nan buf now = .err .wrongSize ∨
      decodeFrame nan buf now = .err .badSync ∨ decodeFrame nan buf now = .err .invalidHoldType)

/-- spec/44_decoder.md R101, R103: the unknown field and the trailer change no output. -/
def Obligations.UnknownAndTrailerChangeNothing : Prop :=
  ∀ (nan : Pattern) (b1 b2 : List Byte) (now : Time), b1.length = 56 → b2.length = 56 →
    (∀ k, k < 49 ∨ k = 53 → b1.getD k 0 = b2.getD k 0) → decodeFrame nan b1 now = decodeFrame nan b2 now

/-- spec/44_decoder.md R96 corner case 2 and R99: no bit of a flagged channel's value reaches the output. -/
def Obligations.FlaggedValueIsDiscarded : Prop :=
  ∀ (nan : Pattern) (b1 b2 : List Byte) (now : Time) (i : Fin 4), b1.length = 56 → b2.length = 56 →
    (b1.getD (21 + i) 0 ≠ 0 → (∀ k, ¬ (5 + 4 * (i : Nat) ≤ k ∧ k < 9 + 4 * i) → b1.getD k 0 = b2.getD k 0) →
      decodeFrame nan b1 now = decodeFrame nan b2 now) ∧
    (b1.getD (41 + i) 0 ≠ 0 → (∀ k, ¬ (25 + 4 * (i : Nat) ≤ k ∧ k < 29 + 4 * i) → b1.getD k 0 = b2.getD k 0) →
      decodeFrame nan b1 now = decodeFrame nan b2 now)

/-- spec/44_decoder.md R91 at the stand-alone port: the rows FRAME56, VALID, CURRENT, MAXIMUM, MINIMUM and AVERAGE answer
what Decode gives for the presented buffer and change nothing else; on a buffer of its row each variant answers a
reading of its hold type. The port's own state is the model's choice (log 11, 14). -/
def Obligations.FrameRowsAnswerDecode : Prop :=
  ∀ (s : State) (buf : List Byte) (now : Time),
    (∀ f ∈ [Instr.frame56, Instr.frame56Valid, Instr.frame56Current, Instr.frame56Maximum, Instr.frame56Minimum,
        Instr.frame56Average],
      ∃ t, exec (f buf now) s = .next t ∧ t.port = { s.port with out := decodeFrame Config.nanSentinel buf now } ∧
        KeepsBlock s t) ∧
    (∀ p ∈ [(Instr.frame56Current, HoldType.current), (Instr.frame56Maximum, .maximum),
        (Instr.frame56Minimum, .minimum), (Instr.frame56Average, .average)],
      (p.1 buf now).wellFormed = true →
        ∃ t r, exec (p.1 buf now) s = .next t ∧ t.port.out = .ok r ∧ r.hold = p.2)

/-- spec/44_decoder.md R94, R97, R100, R101: the 32-bit fields, one by one: a value is extracted for its channel, the meter
temperature for none, the unknown field is discarded. A field as a step of its own is the model's choice (log 12). -/
def Obligations.ValueFieldsAreExtracted : Prop :=
  ∀ (s : State) (v : Pattern),
    (∀ p ∈ [(Instr.fieldCf0, (0 : Fin 4)), (Instr.fieldCf1, 1), (Instr.fieldCf2, 2), (Instr.fieldCf3, 3)],
      ∃ t, exec (p.1 v) s = .next t ∧ FieldAnswers (.cf p.2 v) s t) ∧
    (∀ p ∈ [(Instr.fieldHf0, (0 : Fin 4)), (Instr.fieldHf1, 1), (Instr.fieldHf2, 2), (Instr.fieldHf3, 3)],
      ∃ t, exec (p.1 v) s = .next t ∧ FieldAnswers (.hf p.2 v) s t) ∧
    (∃ t, exec (.fieldMt v) s = .next t ∧ FieldAnswers (.meter v) s t) ∧
    (∃ t, exec (.fieldUnk v) s = .next t ∧ FieldAnswers .discarded s t)

/-- spec/44_decoder.md R95, R98: the error flags, one by one, each extracted for its channel. A field as a step of its own
is the model's choice (log 12). -/
def Obligations.FlagFieldsAreExtracted : Prop :=
  ∀ (s : State) (v : Byte),
    (∀ p ∈ [(Instr.fieldCe0, (0 : Fin 4)), (Instr.fieldCe1, 1), (Instr.fieldCe2, 2), (Instr.fieldCe3, 3)],
      ∃ t, exec (p.1 v) s = .next t ∧ FieldAnswers (.ce p.2 v) s t) ∧
    (∀ p ∈ [(Instr.fieldHe0, (0 : Fin 4)), (Instr.fieldHe1, 1), (Instr.fieldHe2, 2), (Instr.fieldHe3, 3)],
      ∃ t, exec (p.1 v) s = .next t ∧ FieldAnswers (.he p.2 v) s t)

/-- spec/44_decoder.md R93, R102, R103, R104: the first field is the marker or BadSync, the hold type is mapped or is
InvalidHoldType, the trailer is discarded and the clock sampled. A field as a step of its own is the model's choice
(log 12). -/
def Obligations.SyncHoldAndTrailerFields : Prop :=
  ∀ (s : State) (v : BitVec 40) (hc : Byte) (tr : BitVec 16) (now : Time),
    (∃ t, exec (.fieldSync v) s = .next t ∧
      FieldAnswers (if v = 0x01340055AA#40 then .marker else .badSync) s t) ∧
    (∃ t, exec (.fieldHc hc) s = .next t ∧
      (∀ h : HoldType, hc.toNat = (holdCode h).toNat → FieldAnswers (.hold h) s t) ∧
      (3 < hc.toNat → FieldAnswers .invalidHoldType s t)) ∧
    (∃ t, exec (.fieldTr tr now) s = .next t ∧ FieldAnswers (.captime now) s t)

/-- spec/44_decoder.md R91, spec/30_encoding.md R46: the 21 fields of a buffer, presented one after another, are extracted in
21 steps that leave the block alone, and what Decode makes of the answers in frame order is what Decode answers in one piece.
A field as a step of its own is the model's choice (log 12), the queue too (log 1). -/
def Obligations.FieldByFieldIsDecode : Prop :=
  ∀ (s : State) (buf : List Byte) (now : Time) (nan : Pattern) (more : List Input), buf.length = 56 →
    s.inputs = fieldInputs buf now ++ more →
    ∃ os t, fieldRun 21 s = some (os, t) ∧ assemble nan Locals.init os = decodeFrame nan buf now ∧
      t.inputs = more ∧ KeepsBlock { s with inputs := more } t ∧ t.port.out = s.port.out ∧ t.port.code = s.port.code

/-- spec/30_encoding.md R51: the hold-type codes, and the 252 that are none. That the mapping answers on an output of the
decoder port is the model's choice (log 12). -/
def Obligations.HoldCodesMap : Prop :=
  ∀ s : State,
    (∀ p ∈ [(Instr.hcCurrent, HoldType.current), (Instr.hcMaximum, .maximum), (Instr.hcMinimum, .minimum),
        (Instr.hcAverage, .average)],
      ∃ t, exec p.1 s = .next t ∧ t.port = { s.port with code := .hold p.2 } ∧ KeepsBlock s t) ∧
    (∀ hc : Byte, 3 < hc.toNat →
      ∃ t, exec (.hcInvalid hc) s = .next t ∧ t.port = { s.port with code := .invalidHoldType } ∧ KeepsBlock s t)

/-- spec/20_memory.md R34, R36 (an inference of the spec, "derived: from rule R34"): reading 1, 2 or 4 bytes, least
significant first. -/
def Obligations.MemReadIsLittleEndian : Prop :=
  ∀ (buf : List Byte) (a : Nat),
    (a + 1 ≤ buf.length → memRead buf a 1 = (buf.getD a 0).toNat) ∧
    (a + 2 ≤ buf.length → memRead buf a 2 = (buf.getD a 0).toNat + 256 * (buf.getD (a + 1) 0).toNat) ∧
    (a + 4 ≤ buf.length → memRead buf a 4 = (buf.getD a 0).toNat + 256 * (buf.getD (a + 1) 0).toNat
      + 65536 * (buf.getD (a + 2) 0).toNat + 16777216 * (buf.getD (a + 3) 0).toNat)

/-- spec/30_encoding.md R46: a field's value is its slice of the frame vector. -/
def Obligations.FieldsAreSlicesOfTheFrame : Prop :=
  ∀ (buf : List Byte) (a n : Nat), buf.length = 56 → a + n ≤ 56 →
    (frameVector buf).toNat / 256 ^ a % 256 ^ n = memRead buf a n

/-- spec/44_decoder.md R108, spec/00_scope.md R6 (log 10): the sentinel is a NaN pattern, and every NaN pattern is one it could be. -/
def Obligations.SentinelIsSomeNan : Prop :=
  (Config.nanSentinel.extractLsb' 23 8 = 0xFF#8 ∧ Config.nanSentinel.extractLsb' 0 23 ≠ 0) ∧
  ∀ p : Pattern, p.extractLsb' 23 8 = 0xFF#8 → p.extractLsb' 0 23 ≠ 0 → ∃ sign frac, Config.nanOf sign frac = p

/-- spec/00_scope.md R6: the OPEN parameters meet their constraints; their forms, and a whole TICK_HZ, are the model's choice (log 7, 13). -/
def Obligations.ParametersMeetTheirConstraints : Prop :=
  0 < Config.tickHz ∧ State.reset.syncLimit < 2 ^ Config.timerW ∧ State.reset.payloadLimit < 2 ^ Config.timerW ∧
    56 ≤ Config.decMaxLen

/-! ### Encoding -/

/-- Decode and encode agree, for every operation, with every operand at every value of its row
(spec/30_encoding.md R46, R56, R62). What the wires hold beside the operation's own clock or error payload does not matter.
The ports, the received byte's place and the wires are the model's choice (log 14, 15). -/
def Obligations.DecodeOfEncode : Prop :=
  ∀ (i : Instr) (x : Wires) (rest : List Byte), i.wellFormed = true →
    decode (portOf i) (wiresOf x i) (encode i ++ rest) = .ok i rest

/-- What a port decodes is presented at that port with those wires and encoded by those bytes; RESET's phase bits alone are
not kept (spec/30_encoding.md R62). The ports, the received byte's place and the wires are the model's choice
(log 14, 15). -/
def Obligations.EncodeOfDecode : Prop :=
  ∀ (p : Port) (x : Wires) (bs rest : List Byte) (i : Instr), decode p x bs = .ok i rest →
    portOf i = p ∧ wiresOf x i = x ∧
      (encode i ++ rest = bs ∨ (i = .reset ∧ ∃ op, bs = op :: rest ∧ op.extractLsb' 0 6 = 0x01#6))

/-- Words of spec/opcode_table.json and of spec/95_test_vectors.md decode to what they stand for. The spec gives the operation
byte, the field's bytes and the code byte; that each is read at a port of its own is the model's choice (log 14), and so are
the received byte after the operation byte and the error payload and the clock on wires (log 15; their types log 5, 6). -/
def Obligations.KnownWordsDecode : Prop :=
  ∀ x : Wires, decode .event x [0x44#8, 0xAA#8] = .ok (.rxSync 0xAA#8) [] ∧
    decode .event x [0xC1#8] = .ok .reset [] ∧
    decode .event x [0x50#8] = .ok (.terrSync x.err) [] ∧
    decode .event x [0x84#8, 0x15#8] = .ok (.rxPayload 0x15#8 x.now) [] ∧
    decode (.field 45) x [0x00#8, 0x80#8, 0xD2#8, 0x41#8] = .ok (.fieldMt 0x41D28000#32) [] ∧
    decode .code x [0x10#8] = .ok (.hcInvalid 0x10#8) [] ∧
    decode .event x [0x42#8] = .reject .startWhileBusy ∧ decode .event x [0x04#8] = .reject .notEnabled

/-! ### The step -/

/-- A step takes the next port activity and runs the operation its bytes decode to; where none is pending the block waits
(the model's choice, log 1). -/
def Obligations.StepRunsTheDecodedOperation : Prop :=
  (∀ (s s' : State) (a : Input) (more : List Input) (p : Port) (x : Wires) (bs rest : List Byte) (i : Instr),
    s.inputs = a :: more → fetchInput a { s with inputs := more } = .word p x bs s' → decode p x bs = .ok i rest →
    step s = exec i s') ∧
  ∀ s : State, s.inputs = [] → step s = .next s

/-- spec/30_encoding.md R56: each event in each phase is the operation of its row, the byte of RX being the first byte
of the stream, which the step removes. The queue and the stream in State are the model's choice (log 1, 8). -/
def Obligations.EventsAreTheirRows : Prop :=
  ∀ (s : State) (now : Time) (e : IoCode) (more : List Input) (k : EventKind),
    s.inputs = .event (eventCode k) now e :: more →
    let s' := { s with inputs := more }
    (k = .reset → step s = exec .reset s') ∧
    (k = .start → s.phase = .idle → step s = exec .start s') ∧
    (k = .tto → s.phase = .sync → step s = exec .ttoSync s') ∧
    (k = .tto → s.phase = .payload → step s = exec .ttoPayload s') ∧
    (k = .terr → s.phase = .sync → step s = exec (.terrSync e) s') ∧
    (k = .terr → s.phase = .payload → step s = exec (.terrPayload e) s') ∧
    (k = .tick → s.phase = .idle → step s = exec .tickIdle s') ∧
    (k = .tick → s.phase = .sync → step s = exec .tickSync s') ∧
    (k = .tick → s.phase = .payload → step s = exec .tickPayload s') ∧
    (∀ b bs, k = .rx → s.stream = b :: bs →
      (s.phase = .sync → step s = exec (.rxSync b) { s' with stream := bs, pos := s.pos + 1 }) ∧
      (s.phase = .payload → step s = exec (.rxPayload b now) { s' with stream := bs, pos := s.pos + 1 }))

/-- An event without a row, and a limit write while busy, stop the step by name (spec/40_host_commands.md R65,
spec/43_transport_events_and_timer.md R90, spec/30_encoding.md R56, spec/70_reset_and_hazards.md R136). The queue is the
model's choice (log 1). -/
def Obligations.EventsWithoutARowAreRefused : Prop :=
  ∀ (s : State) (now : Time) (e : IoCode) (more : List Input),
    (∀ k, (k = .rx ∨ k = .tto ∨ k = .terr) → s.phase = .idle → s.inputs = .event (eventCode k) now e :: more →
      step s = .refused .notEnabled) ∧
    (s.phase ≠ .idle → s.inputs = .event (eventCode .start) now e :: more → step s = .refused .startWhileBusy) ∧
    (∀ ev, (∀ k, ev ≠ eventCode k) → s.inputs = .event ev now e :: more → step s = .refused .notOneHot) ∧
    (s.phase ≠ .idle → s.stream = [] → s.inputs = .event (eventCode .rx) now e :: more → step s = .refused .noByte) ∧
    (∀ v, s.phase ≠ .idle → (s.inputs = .writeSyncLimit v :: more ∨ s.inputs = .writePayloadLimit v :: more) →
      step s = .refused .limitWriteWhileBusy)

/-- spec/20_memory.md R33: a step consumes a byte exactly when it takes RX, and then the first byte of the stream, once.
The queue and the stream in State are the model's choice (log 1, 8). -/
def Obligations.OnlyRxConsumesAByte : Prop :=
  ∀ s t : State, step s = .next t →
    (t.stream = s.stream ∧ t.pos = s.pos ∧ ∀ now e more, s.inputs ≠ .event (eventCode .rx) now e :: more) ∨
    (∃ b now e more, s.inputs = .event (eventCode .rx) now e :: more ∧ s.phase ≠ .idle ∧ s.stream = b :: t.stream ∧
      t.pos = s.pos + 1 ∧
      ∃ s', s' = { s with inputs := more, stream := t.stream, pos := t.pos } ∧
        (exec (.rxSync b) s' = .next t ∨ exec (.rxPayload b now) s' = .next t))

/-- spec/44_decoder.md R91, R92, R107 at the stand-alone port: a buffer of any length is decoded, so every length up to
DEC_MAXLEN is, whatever DEC_MAXLEN is. The port's state and the queue are the model's choice (log 1, 11, 13). -/
def Obligations.DecoderPortTakesAnyLength : Prop :=
  ∀ (s : State) (buf : List Byte) (now : Time) (more : List Input), s.inputs = .frame .whole buf now :: more →
    ∃ t, step s = .next t ∧ t.port = { s.port with out := decodeFrame Config.nanSentinel buf now } ∧
      (buf.length ≠ 56 → t.port.out = .err .wrongSize) ∧ t.inputs = more ∧ KeepsBlock { s with inputs := more } t

/-! ### The invariant -/

/-- The state after reset has the invariant of spec/10_state.md R27, an inference of the spec ("derived: from rules R63,
R64, R70"), and of the model's own fields (log 2, 11, 22). -/
def Obligations.ResetHasTheInvariant : Prop := Inv State.reset

/-- Every step keeps the invariant of spec/10_state.md R27, an inference of the spec ("derived: from rules R63, R64,
R70"), and of the model's own fields (log 2, 11, 22). -/
def Obligations.StepKeepsTheInvariant : Prop := ∀ s t : State, Inv s → step s = .next t → Inv t

/-- From the invariant no step faults: the buffer has every offset that is written (spec/20_memory.md R30, R37; the fault
is the model's, log 21). -/
def Obligations.NoStepFaultsUnderTheInvariant : Prop := ∀ (s : State) (f : Fault), Inv s → step s ≠ .fault f

/-- A buffer in canonical form is determined by what it reads as; the form is the model's (log 2). -/
def Obligations.CanonicalBuffersAreEqual : Prop :=
  ∀ m n : Memory, Memory.wf m = true → Memory.wf n = true → (∀ a, Memory.read m a = Memory.read n a) → m = n
end

