-- ==== Sys2Proof/Laws/Codec.lean ====
section
/-! SUPPORT. Byte order: the bytes of a number spell it, and reading a number off the front of a list of bytes. -/

namespace Sys2Proof

@[simp] theorem leBytes_length (n v : Nat) : (leBytes n v).length = n := by
  induction n generalizing v with
  | zero => rfl
  | succ n ih => simp [leBytes, ih]

theorem leValue_lt (bs : List Byte) : leValue bs < 256 ^ bs.length := by
  induction bs with
  | nil => simp [leValue]
  | cons b bs ih =>
    have := b.isLt
    simp only [leValue, List.length_cons]
    rw [Nat.pow_succ 256]
    omega

theorem leValue_leBytes (n v : Nat) : leValue (leBytes n v) = v % 256 ^ n := by
  induction n generalizing v with
  | zero => simp [leBytes, leValue, Nat.mod_one]
  | succ n ih =>
    have h8 : (2 : Nat) ^ 8 = 256 := by decide
    simp only [leBytes, leValue, ih, BitVec.toNat_ofNat, h8]
    rw [Nat.pow_succ 256 n, Nat.mul_comm (256 ^ n) 256, Nat.mod_mul]

theorem leBytes_leValue (bs : List Byte) : leBytes bs.length (leValue bs) = bs := by
  induction bs with
  | nil => rfl
  | cons b bs ih =>
    have hb := b.isLt
    have h1 : (b.toNat + 256 * leValue bs) / 256 = leValue bs := by omega
    have h2 : BitVec.ofNat 8 (b.toNat + 256 * leValue bs) = b := by
      apply BitVec.eq_of_toNat_eq
      simp only [BitVec.toNat_ofNat]
      omega
    simp only [List.length_cons, leBytes, leValue, h1, h2, ih]

theorem leValue_append (bs cs : List Byte) : leValue (bs ++ cs) = leValue bs + 256 ^ bs.length * leValue cs := by
  induction bs with
  | nil => simp [leValue]
  | cons b bs ih =>
    simp only [List.cons_append, leValue, ih, List.length_cons, Nat.mul_add, Nat.add_assoc]
    rw [Nat.pow_succ 256, ← Nat.mul_assoc, Nat.mul_comm 256 (256 ^ bs.length)]

/-- Reading a number where its bytes stand first. -/
theorem takeLe_leBytes (n v : Nat) (rest : List Byte) (k : Nat → List Byte → Decoded) :
    takeLe n (leBytes n v ++ rest) k = k (v % 256 ^ n) rest := by
  have h : ¬ (leBytes n v ++ rest).length < n := by simp
  simp only [takeLe, h, if_false]
  rw [List.take_left' (leBytes_length n v), List.drop_left' (leBytes_length n v), leValue_leBytes]

/-- Reading one byte. -/
@[simp] theorem takeLe_one (b : Byte) (rest : List Byte) (k : Nat → List Byte → Decoded) :
    takeLe 1 (b :: rest) k = k b.toNat rest := by
  simp [takeLe, leValue]

/-- 2 bytes hold a 16-bit value whole. -/
@[simp] theorem ofNat_mod_16 (v : BitVec 16) : BitVec.ofNat 16 (v.toNat % 65536) = v := by
  apply BitVec.eq_of_toNat_eq
  have := v.isLt
  simp only [BitVec.toNat_ofNat]
  omega

/-- 4 bytes hold a 32-bit value whole. -/
@[simp] theorem ofNat_mod_32 (v : BitVec 32) : BitVec.ofNat 32 (v.toNat % 4294967296) = v := by
  apply BitVec.eq_of_toNat_eq
  have := v.isLt
  simp only [BitVec.toNat_ofNat]
  omega

/-- 5 bytes hold a 40-bit value whole. -/
@[simp] theorem ofNat_mod_40 (v : BitVec 40) : BitVec.ofNat 40 (v.toNat % 1099511627776) = v := by
  apply BitVec.eq_of_toNat_eq
  have := v.isLt
  simp only [BitVec.toNat_ofNat]
  omega

@[simp] theorem Wires.ofClock_now (now : Time) : (Wires.ofClock now).now = now := rfl

/-- Reading a number from all of the bytes. -/
theorem takeLe_all {n : Nat} {bs : List Byte} (h : bs.length = n) (k : Nat → List Byte → Decoded) :
    takeLe n bs k = k (leValue bs) [] := by
  subst h
  simp [takeLe]

@[simp] theorem phaseOf_phaseCode (p : Phase) : phaseOf (phaseCode p) = some p := by cases p <;> decide

@[simp] theorem eventOf_eventCode (e : EventKind) : eventOf (eventCode e) = some e := by cases e <;> decide

/-- A vector that is an event is that event's vector. -/
theorem eventCode_of_eventOf {ev : BitVec 6} {e : EventKind} (h : eventOf ev = some e) : ev = eventCode e := by
  revert ev e
  decide

/-- The event bits of an operation byte. -/
@[simp] theorem opByte_event (p : Phase) (ev : BitVec 6) : (opByte p ev).extractLsb' 0 6 = ev := by
  cases p <;> revert ev <;> decide

/-- The phase bits of an operation byte. -/
@[simp] theorem opByte_phase (p : Phase) (ev : BitVec 6) : (opByte p ev).extractLsb' 6 2 = phaseCode p := by
  cases p <;> revert ev <;> decide

/-- An operation byte is read as its event in its phase. -/
theorem decodeEvent_opByte {ev : BitVec 6} {e : EventKind} (p : Phase) (x : Wires) (bs : List Byte)
    (h : eventOf ev = some e) : decodeEvent x (opByte p ev :: bs) = decodeEventIn e p x bs := by
  simp only [decodeEvent, opByte_event, opByte_phase, phaseOf_phaseCode, h]
  cases e <;> rfl

/-- An operation byte whose vector is no event is none. -/
theorem decodeEvent_none {ev : BitVec 6} (p : Phase) (x : Wires) (bs : List Byte) (h : eventOf ev = none) :
    decodeEvent x (opByte p ev :: bs) = .reject .notOneHot := by
  simp only [decodeEvent, opByte_event, h]

/-- What reading a number off the front answers. -/
theorem takeLe_ok {n : Nat} {bs rest : List Byte} {k : Nat → List Byte → Decoded} {i : Instr}
    (h : takeLe n bs k = .ok i rest) : n ≤ bs.length ∧ k (leValue (bs.take n)) (bs.drop n) = .ok i rest := by
  unfold takeLe at h
  split at h
  · cases h
  · exact ⟨by omega, h⟩

/-- A number read off the front, written again. -/
theorem leBytes_ofNat_take (n w : Nat) (hw : 2 ^ w = 256 ^ n) (bs : List Byte) (h : n ≤ bs.length) :
    leBytes n (BitVec.ofNat w (leValue (bs.take n))).toNat ++ bs.drop n = bs := by
  have hl : (bs.take n).length = n := by simp [h]
  have hlt := leValue_lt (bs.take n)
  have hb := leBytes_leValue (bs.take n)
  rw [hl] at hlt hb
  rw [BitVec.toNat_ofNat, hw, Nat.mod_eq_of_lt hlt, hb, List.take_append_drop]

/-- What reading a 32-bit field answers. -/
theorem takeField32_ok {mk : Pattern → Instr} {bs rest : List Byte} {i : Instr} (h : takeField32 mk bs = .ok i rest) :
    ∃ v : Pattern, i = mk v ∧ leBytes 4 v.toNat ++ rest = bs := by
  obtain ⟨hl, h⟩ := takeLe_ok h
  cases h
  exact ⟨_, rfl, leBytes_ofNat_take 4 32 (by decide) bs hl⟩

/-- What reading a one-byte field answers. -/
theorem takeField8_ok {mk : Byte → Instr} {bs rest : List Byte} {i : Instr} (h : takeField8 mk bs = .ok i rest) :
    ∃ v : Byte, i = mk v ∧ v :: rest = bs := by
  obtain ⟨hl, h⟩ := takeLe_ok h
  cases h
  refine ⟨_, rfl, ?_⟩
  cases bs with
  | nil => simp at hl
  | cons b bs => simp [leValue]

/-- An operation byte is its phase and its event. -/
theorem opByte_of_codes {op : Byte} {e : EventKind} {p : Phase} :
    eventOf (op.extractLsb' 0 6) = some e → phaseOf (op.extractLsb' 6 2) = some p → op = opByte p (eventCode e) := by
  cases e <;> cases p <;> revert op <;> decide

/-- Reading a 32-bit field from four bytes. -/
theorem takeField32_val {mk : Pattern → Instr} {bs tail : List Byte} (h : bs.length = 4) :
    takeField32 mk (bs ++ tail) = .ok (mk (BitVec.ofNat 32 (leValue bs))) tail := by
  unfold takeField32 takeLe
  rw [if_neg (by simp [h]), List.take_left' h, List.drop_left' h]

/-- Reading a one-byte field from one byte. -/
theorem takeField8_val {mk : Byte → Instr} {bs tail : List Byte} (h : bs.length = 1) :
    takeField8 mk (bs ++ tail) = .ok (mk (BitVec.ofNat 8 (leValue bs))) tail := by
  unfold takeField8 takeLe
  rw [if_neg (by simp [h]), List.take_left' h, List.drop_left' h]

end Sys2Proof
end

