-- ==== Sys2Proof/Laws/Decoder.lean ====
section
/-! SUPPORT. The decoder: fields byte by byte, the hold-type map, what Decode answers once length and marker are right,
and the parts of a 32-bit pattern. -/

namespace Sys2Proof.Machine

theorem memRead_succ (buf : List Byte) (a n : Nat) (h : a < buf.length) :
    memRead buf a (n + 1) = (buf.getD a 0).toNat + 256 * memRead buf (a + 1) n := by
  unfold memRead
  rw [List.drop_eq_getElem_cons h, List.take_succ_cons, leValue, List.getD_eq_getElem _ _ h]

@[simp] theorem memRead_zero (buf : List Byte) (a : Nat) : memRead buf a 0 = 0 := by simp [memRead, leValue]

/-- A 32-bit field inside the buffer, byte by byte. -/
theorem mem32_eq (buf : List Byte) (a : Nat) (h : a + 4 ≤ buf.length) : mem32 buf a = patternAt buf a := by
  unfold mem32 patternAt
  congr 1
  rw [memRead_succ _ _ _ (by omega), memRead_succ _ _ _ (by omega), memRead_succ _ _ _ (by omega),
    memRead_succ _ _ _ (by omega), memRead_zero]
  simp only [Nat.add_assoc, Nat.reduceAdd]
  omega

/-- A one-byte field inside the buffer. -/
theorem mem8_eq (buf : List Byte) (a : Nat) (h : a + 1 ≤ buf.length) : mem8 buf a = buf.getD a 0 := by
  unfold mem8
  rw [memRead_succ _ _ _ (by omega), memRead_zero]
  simp

theorem patternAt_congr {b1 b2 : List Byte} {a : Nat} (h : ∀ k, a ≤ k → k < a + 4 → b1.getD k 0 = b2.getD k 0) :
    patternAt b1 a = patternAt b2 a := by
  unfold patternAt
  rw [h a, h (a + 1), h (a + 2), h (a + 3)] <;> omega

@[simp] theorem Quad.get_ofFn {α : Type} (f : Fin 4 → α) (i : Fin 4) : (Quad.ofFn f).get i = f i := by
  match i with
  | 0 => rfl
  | 1 => rfl
  | 2 => rfl
  | 3 => rfl

theorem Quad.set_eq {α : Type} (q : Quad α) (i : Fin 4) (a : α) :
    q.set i a = Quad.ofFn fun j => if j = i then a else q.get j := by
  match i with
  | 0 => rfl
  | 1 => rfl
  | 2 => rfl
  | 3 => rfl

theorem holdOf_eq_none (hc : Byte) : holdOf hc = none ↔ 3 < hc.toNat := by
  revert hc
  decide

theorem holdOf_eq_some (hc : Byte) (h : HoldType) : holdOf hc = some h ↔ hc.toNat = (holdCode h).toNat := by
  cases h <;> revert hc <;> decide

theorem decodeFrame_size {nan : Pattern} {buf : List Byte} {now : Time} (hl : buf.length ≠ 56) :
    decodeFrame nan buf now = .err .wrongSize := by
  unfold decodeFrame
  rw [if_pos (show buf.length ≠ Config.frameLen from hl)]

theorem decodeFrame_sync {nan : Pattern} {buf : List Byte} {now : Time} (hl : buf.length = 56)
    (hm : buf.take 5 ≠ Config.marker) : decodeFrame nan buf now = .err .badSync := by
  unfold decodeFrame
  rw [if_neg (by simp [hl, Config.frameLen]), if_pos (show buf.take Config.markerLen ≠ Config.marker from hm)]

/-- Decode past its first two checks: the hold type decides, and every field comes from its bytes. -/
theorem decodeFrame_body {nan : Pattern} {buf : List Byte} {now : Time} (hl : buf.length = 56)
    (hm : buf.take 5 = Config.marker) :
    decodeFrame nan buf now = match holdOf (buf.getD 53 0) with
      | none => .err .invalidHoldType
      | some h => .ok
          { cur := substituteQuad nan (Quad.ofFn fun i => patternAt buf (5 + 4 * i))
              (Quad.ofFn fun i => buf.getD (21 + i) 0)
            held := substituteQuad nan (Quad.ofFn fun i => patternAt buf (25 + 4 * i))
              (Quad.ofFn fun i => buf.getD (41 + i) 0)
            meter := patternAt buf 45
            hold := h
            captime := now } := by
  unfold decodeFrame
  rw [if_neg (by simp [hl, Config.frameLen]), if_neg (by simp [Config.markerLen, hm])]
  have e1 : ∀ i : Fin 4, mem32 buf (5 + 4 * i) = patternAt buf (5 + 4 * i) := fun i => mem32_eq _ _ (by omega)
  have e2 : ∀ i : Fin 4, mem32 buf (25 + 4 * i) = patternAt buf (25 + 4 * i) := fun i => mem32_eq _ _ (by omega)
  have e3 : ∀ i : Fin 4, mem8 buf (21 + i) = buf.getD (21 + i) 0 := fun i => mem8_eq _ _ (by omega)
  have e4 : ∀ i : Fin 4, mem8 buf (41 + i) = buf.getD (41 + i) 0 := fun i => mem8_eq _ _ (by omega)
  simp only [Nat.reduceAdd, e1, e2, e3, e4, mem32_eq buf 45 (by omega), mem8_eq buf 53 (by omega), Config.frameLen]
  rfl

/-- Writing the decoder port leaves the block alone. -/
theorem keepsBlock_setPort (s : State) (p : DecPort) : KeepsBlock s (s.setPort p) :=
  ⟨rfl, rfl, fun _ => rfl, rfl, ⟨rfl, rfl⟩, rfl, rfl, rfl, rfl, rfl⟩

/-- The low part of three bit vectors put together. -/
theorem extractLsb'_append_low {n m k : Nat} (a : BitVec n) (e : BitVec m) (f : BitVec k) :
    BitVec.extractLsb' 0 k (a ++ e ++ f) = f := by
  apply BitVec.eq_of_getLsbD_eq
  intro i hi
  simp [BitVec.getLsbD_append, hi]

/-- The middle part of three bit vectors put together. -/
theorem extractLsb'_append_mid {n m k : Nat} (a : BitVec n) (e : BitVec m) (f : BitVec k) :
    BitVec.extractLsb' k m (a ++ e ++ f) = e := by
  apply BitVec.eq_of_getLsbD_eq
  intro i hi
  simp [BitVec.getLsbD_append, hi]

/-- A bit vector is its three parts put together. -/
theorem append_extractLsb' {n m k : Nat} (p : BitVec (n + m + k)) :
    p.extractLsb' (k + m) n ++ p.extractLsb' k m ++ p.extractLsb' 0 k = p := by
  apply BitVec.eq_of_getLsbD_eq
  intro i hi
  simp only [BitVec.getLsbD_append, BitVec.getLsbD_extractLsb']
  by_cases h1 : i < k
  · simp [h1]
  · by_cases h2 : i - k < m
    · simp [h1, h2, show k + (i - k) = i by omega]
    · simp [h1, h2, show k + m + (i - k - m) = i by omega, show i - k - m < n by omega]

end Sys2Proof.Machine
end

