-- ==== Sys2Proof/Laws/Memory.lean ====
section
/-! SUPPORT. The frame buffer as memory: what a read gives after a write, and that every operation keeps the canonical
form. -/

namespace Sys2Proof.Machine

@[simp] theorem Memory.read_nil (x : Nat) : Memory.read [] x = none := rfl

@[simp] theorem Memory.read_write (m : Memory) (x y : Nat) (v : Byte) :
    Memory.read (Memory.write m x v) y = if y = x then some v else Memory.read m y := by
  induction m with
  | nil => simp [Memory.write, Memory.read]
  | cons c m ih =>
    obtain ⟨a, w⟩ := c
    simp only [Memory.write]
    split
    · by_cases h : y = x <;> simp [Memory.read, h]
    · split
      · rename_i h
        subst h
        by_cases h : y = x <;> simp [Memory.read, h]
      · simp only [Memory.read, ih]
        by_cases h : y = x
        · have : ¬ x = a := by omega
          simp [h, this]
        · simp [h]

theorem Memory.read_writeList (m : Memory) (a : Nat) (vs : List Byte) (y : Nat) :
    Memory.read (Memory.writeList m a vs) y = if a ≤ y then vs[y - a]?.or (Memory.read m y) else Memory.read m y := by
  induction vs generalizing m a with
  | nil => simp [Memory.writeList]
  | cons v vs ih =>
    simp only [Memory.writeList, ih, Memory.read_write]
    by_cases h : y = a
    · subst h
      have : ¬ y + 1 ≤ y := by omega
      simp [this]
    · by_cases h2 : a + 1 ≤ y
      · have h3 : a ≤ y := by omega
        obtain ⟨k, rfl⟩ : ∃ k, y = a + 1 + k := ⟨y - (a + 1), by omega⟩
        have h4 : a + 1 + k - a = k + 1 := by omega
        have h5 : ¬ a + 1 + k = a := by omega
        simp [h3, h4, h5]
      · have h3 : ¬ a ≤ y := by omega
        simp [h2, h3, h]

theorem Memory.risingFrom_mono {lo lo' : Nat} {m : Memory} (h : lo' ≤ lo) (hm : Memory.risingFrom lo m = true) :
    Memory.risingFrom lo' m = true := by
  cases m with
  | nil => rfl
  | cons c m =>
    simp only [Memory.risingFrom, Bool.and_eq_true, decide_eq_true_eq] at hm ⊢
    exact ⟨⟨by omega, hm.1.2⟩, hm.2⟩

theorem Memory.risingFrom_write {lo : Nat} {m : Memory} {x : Nat} {v : Byte} (hm : Memory.risingFrom lo m = true)
    (hlo : lo ≤ x) (hx : x < Config.frameLen) : Memory.risingFrom lo (Memory.write m x v) = true := by
  induction m generalizing lo with
  | nil => simp [Memory.write, Memory.risingFrom, hlo, hx]
  | cons c m ih =>
    obtain ⟨a, w⟩ := c
    simp only [Memory.risingFrom, Bool.and_eq_true, decide_eq_true_eq] at hm
    simp only [Memory.write]
    split
    · rename_i h
      simp only [Memory.risingFrom, Bool.and_eq_true, decide_eq_true_eq]
      exact ⟨⟨hlo, hx⟩, ⟨by omega, hm.1.2⟩, hm.2⟩
    · split
      · rename_i h
        subst h
        simp only [Memory.risingFrom, Bool.and_eq_true, decide_eq_true_eq]
        exact ⟨⟨hlo, hx⟩, hm.2⟩
      · simp only [Memory.risingFrom, Bool.and_eq_true, decide_eq_true_eq]
        exact ⟨hm.1, ih hm.2 (by omega)⟩

/-- A store at an offset the buffer has keeps the canonical form. -/
theorem Memory.wf_write {m : Memory} {x : Nat} {v : Byte} (hm : Memory.wf m = true) (hx : x < Config.frameLen) :
    Memory.wf (Memory.write m x v) = true := Memory.risingFrom_write hm (Nat.zero_le _) hx

/-- A row of stores inside the buffer keeps the canonical form. -/
theorem Memory.wf_writeList {m : Memory} {a : Nat} {vs : List Byte} (hm : Memory.wf m = true)
    (ha : a + vs.length ≤ Config.frameLen) : Memory.wf (Memory.writeList m a vs) = true := by
  induction vs generalizing m a with
  | nil => exact hm
  | cons v vs ih =>
    simp only [List.length_cons] at ha
    exact ih (Memory.wf_write hm (by omega)) (by omega)

theorem Memory.read_lt_lo {lo : Nat} {m : Memory} (hm : Memory.risingFrom lo m = true) {x : Nat} (hx : x < lo) :
    Memory.read m x = none := by
  induction m generalizing lo with
  | nil => rfl
  | cons c m ih =>
    simp only [Memory.risingFrom, Bool.and_eq_true, decide_eq_true_eq] at hm
    have : ¬ x = c.1 := by omega
    simp only [Memory.read, this, if_false]
    exact ih hm.2 (by omega)

@[simp] theorem bufBytes_length (s : State) (a n : Nat) : (bufBytes s a n).length = n := by simp [bufBytes]

theorem bufBytes_getElem? (s : State) (a n i : Nat) :
    (bufBytes s a n)[i]? = if i < n then some (bufByte s (a + i)) else none := by
  simp only [bufBytes, List.getElem?_map]
  by_cases h : i < n
  · simp [h]
  · simp [h]

theorem bufByte_of_read {s : State} {a : Nat} {v : Byte} (h : Memory.read s.buf a = some v) : bufByte s a = v := by
  simp [bufByte, h]

end Sys2Proof.Machine
end

