-- ==== Sys2Proof/Laws/State.lean ====
section
/-! SUPPORT. One lemma per field per update of the state, true by computation, so that no proof unfolds a record
update. -/

namespace Sys2Proof.Machine

@[simp] theorem State.setPhase_phase (s : State) (v : Phase) : (s.setPhase v).phase = v := rfl
@[simp] theorem State.setPhase_cnt (s : State) (v : Phase) : (s.setPhase v).cnt = s.cnt := rfl
@[simp] theorem State.setPhase_buf (s : State) (v : Phase) : (s.setPhase v).buf = s.buf := rfl
@[simp] theorem State.setPhase_timer (s : State) (v : Phase) : (s.setPhase v).timer = s.timer := rfl
@[simp] theorem State.setPhase_syncLimit (s : State) (v : Phase) : (s.setPhase v).syncLimit = s.syncLimit := rfl
@[simp] theorem State.setPhase_payloadLimit (s : State) (v : Phase) : (s.setPhase v).payloadLimit = s.payloadLimit := rfl
@[simp] theorem State.setPhase_res (s : State) (v : Phase) : (s.setPhase v).res = s.res := rfl
@[simp] theorem State.setPhase_draws (s : State) (v : Phase) : (s.setPhase v).draws = s.draws := rfl
@[simp] theorem State.setPhase_port (s : State) (v : Phase) : (s.setPhase v).port = s.port := rfl
@[simp] theorem State.setPhase_stream (s : State) (v : Phase) : (s.setPhase v).stream = s.stream := rfl
@[simp] theorem State.setPhase_pos (s : State) (v : Phase) : (s.setPhase v).pos = s.pos := rfl
@[simp] theorem State.setPhase_inputs (s : State) (v : Phase) : (s.setPhase v).inputs = s.inputs := rfl

@[simp] theorem State.setCnt_phase (s : State) (v : Nat) : (s.setCnt v).phase = s.phase := rfl
@[simp] theorem State.setCnt_cnt (s : State) (v : Nat) : (s.setCnt v).cnt = v := rfl
@[simp] theorem State.setCnt_buf (s : State) (v : Nat) : (s.setCnt v).buf = s.buf := rfl
@[simp] theorem State.setCnt_timer (s : State) (v : Nat) : (s.setCnt v).timer = s.timer := rfl
@[simp] theorem State.setCnt_syncLimit (s : State) (v : Nat) : (s.setCnt v).syncLimit = s.syncLimit := rfl
@[simp] theorem State.setCnt_payloadLimit (s : State) (v : Nat) : (s.setCnt v).payloadLimit = s.payloadLimit := rfl
@[simp] theorem State.setCnt_res (s : State) (v : Nat) : (s.setCnt v).res = s.res := rfl
@[simp] theorem State.setCnt_draws (s : State) (v : Nat) : (s.setCnt v).draws = s.draws := rfl
@[simp] theorem State.setCnt_port (s : State) (v : Nat) : (s.setCnt v).port = s.port := rfl
@[simp] theorem State.setCnt_stream (s : State) (v : Nat) : (s.setCnt v).stream = s.stream := rfl
@[simp] theorem State.setCnt_pos (s : State) (v : Nat) : (s.setCnt v).pos = s.pos := rfl
@[simp] theorem State.setCnt_inputs (s : State) (v : Nat) : (s.setCnt v).inputs = s.inputs := rfl

@[simp] theorem State.setBuf_phase (s : State) (v : List Host.Cell) : (s.setBuf v).phase = s.phase := rfl
@[simp] theorem State.setBuf_cnt (s : State) (v : List Host.Cell) : (s.setBuf v).cnt = s.cnt := rfl
@[simp] theorem State.setBuf_buf (s : State) (v : List Host.Cell) : (s.setBuf v).buf = v := rfl
@[simp] theorem State.setBuf_timer (s : State) (v : List Host.Cell) : (s.setBuf v).timer = s.timer := rfl
@[simp] theorem State.setBuf_syncLimit (s : State) (v : List Host.Cell) : (s.setBuf v).syncLimit = s.syncLimit := rfl
@[simp] theorem State.setBuf_payloadLimit (s : State) (v : List Host.Cell) : (s.setBuf v).payloadLimit = s.payloadLimit := rfl
@[simp] theorem State.setBuf_res (s : State) (v : List Host.Cell) : (s.setBuf v).res = s.res := rfl
@[simp] theorem State.setBuf_draws (s : State) (v : List Host.Cell) : (s.setBuf v).draws = s.draws := rfl
@[simp] theorem State.setBuf_port (s : State) (v : List Host.Cell) : (s.setBuf v).port = s.port := rfl
@[simp] theorem State.setBuf_stream (s : State) (v : List Host.Cell) : (s.setBuf v).stream = s.stream := rfl
@[simp] theorem State.setBuf_pos (s : State) (v : List Host.Cell) : (s.setBuf v).pos = s.pos := rfl
@[simp] theorem State.setBuf_inputs (s : State) (v : List Host.Cell) : (s.setBuf v).inputs = s.inputs := rfl

@[simp] theorem State.setTimer_phase (s : State) (v : Nat) : (s.setTimer v).phase = s.phase := rfl
@[simp] theorem State.setTimer_cnt (s : State) (v : Nat) : (s.setTimer v).cnt = s.cnt := rfl
@[simp] theorem State.setTimer_buf (s : State) (v : Nat) : (s.setTimer v).buf = s.buf := rfl
@[simp] theorem State.setTimer_timer (s : State) (v : Nat) : (s.setTimer v).timer = v := rfl
@[simp] theorem State.setTimer_syncLimit (s : State) (v : Nat) : (s.setTimer v).syncLimit = s.syncLimit := rfl
@[simp] theorem State.setTimer_payloadLimit (s : State) (v : Nat) : (s.setTimer v).payloadLimit = s.payloadLimit := rfl
@[simp] theorem State.setTimer_res (s : State) (v : Nat) : (s.setTimer v).res = s.res := rfl
@[simp] theorem State.setTimer_draws (s : State) (v : Nat) : (s.setTimer v).draws = s.draws := rfl
@[simp] theorem State.setTimer_port (s : State) (v : Nat) : (s.setTimer v).port = s.port := rfl
@[simp] theorem State.setTimer_stream (s : State) (v : Nat) : (s.setTimer v).stream = s.stream := rfl
@[simp] theorem State.setTimer_pos (s : State) (v : Nat) : (s.setTimer v).pos = s.pos := rfl
@[simp] theorem State.setTimer_inputs (s : State) (v : Nat) : (s.setTimer v).inputs = s.inputs := rfl

@[simp] theorem State.setSyncLimit_phase (s : State) (v : Nat) : (s.setSyncLimit v).phase = s.phase := rfl
@[simp] theorem State.setSyncLimit_cnt (s : State) (v : Nat) : (s.setSyncLimit v).cnt = s.cnt := rfl
@[simp] theorem State.setSyncLimit_buf (s : State) (v : Nat) : (s.setSyncLimit v).buf = s.buf := rfl
@[simp] theorem State.setSyncLimit_timer (s : State) (v : Nat) : (s.setSyncLimit v).timer = s.timer := rfl
@[simp] theorem State.setSyncLimit_syncLimit (s : State) (v : Nat) : (s.setSyncLimit v).syncLimit = v := rfl
@[simp] theorem State.setSyncLimit_payloadLimit (s : State) (v : Nat) : (s.setSyncLimit v).payloadLimit = s.payloadLimit := rfl
@[simp] theorem State.setSyncLimit_res (s : State) (v : Nat) : (s.setSyncLimit v).res = s.res := rfl
@[simp] theorem State.setSyncLimit_draws (s : State) (v : Nat) : (s.setSyncLimit v).draws = s.draws := rfl
@[simp] theorem State.setSyncLimit_port (s : State) (v : Nat) : (s.setSyncLimit v).port = s.port := rfl
@[simp] theorem State.setSyncLimit_stream (s : State) (v : Nat) : (s.setSyncLimit v).stream = s.stream := rfl
@[simp] theorem State.setSyncLimit_pos (s : State) (v : Nat) : (s.setSyncLimit v).pos = s.pos := rfl
@[simp] theorem State.setSyncLimit_inputs (s : State) (v : Nat) : (s.setSyncLimit v).inputs = s.inputs := rfl

@[simp] theorem State.setPayloadLimit_phase (s : State) (v : Nat) : (s.setPayloadLimit v).phase = s.phase := rfl
@[simp] theorem State.setPayloadLimit_cnt (s : State) (v : Nat) : (s.setPayloadLimit v).cnt = s.cnt := rfl
@[simp] theorem State.setPayloadLimit_buf (s : State) (v : Nat) : (s.setPayloadLimit v).buf = s.buf := rfl
@[simp] theorem State.setPayloadLimit_timer (s : State) (v : Nat) : (s.setPayloadLimit v).timer = s.timer := rfl
@[simp] theorem State.setPayloadLimit_syncLimit (s : State) (v : Nat) : (s.setPayloadLimit v).syncLimit = s.syncLimit := rfl
@[simp] theorem State.setPayloadLimit_payloadLimit (s : State) (v : Nat) : (s.setPayloadLimit v).payloadLimit = v := rfl
@[simp] theorem State.setPayloadLimit_res (s : State) (v : Nat) : (s.setPayloadLimit v).res = s.res := rfl
@[simp] theorem State.setPayloadLimit_draws (s : State) (v : Nat) : (s.setPayloadLimit v).draws = s.draws := rfl
@[simp] theorem State.setPayloadLimit_port (s : State) (v : Nat) : (s.setPayloadLimit v).port = s.port := rfl
@[simp] theorem State.setPayloadLimit_stream (s : State) (v : Nat) : (s.setPayloadLimit v).stream = s.stream := rfl
@[simp] theorem State.setPayloadLimit_pos (s : State) (v : Nat) : (s.setPayloadLimit v).pos = s.pos := rfl
@[simp] theorem State.setPayloadLimit_inputs (s : State) (v : Nat) : (s.setPayloadLimit v).inputs = s.inputs := rfl

@[simp] theorem State.setRes_phase (s : State) (v : Res) : (s.setRes v).phase = s.phase := rfl
@[simp] theorem State.setRes_cnt (s : State) (v : Res) : (s.setRes v).cnt = s.cnt := rfl
@[simp] theorem State.setRes_buf (s : State) (v : Res) : (s.setRes v).buf = s.buf := rfl
@[simp] theorem State.setRes_timer (s : State) (v : Res) : (s.setRes v).timer = s.timer := rfl
@[simp] theorem State.setRes_syncLimit (s : State) (v : Res) : (s.setRes v).syncLimit = s.syncLimit := rfl
@[simp] theorem State.setRes_payloadLimit (s : State) (v : Res) : (s.setRes v).payloadLimit = s.payloadLimit := rfl
@[simp] theorem State.setRes_res (s : State) (v : Res) : (s.setRes v).res = v := rfl
@[simp] theorem State.setRes_draws (s : State) (v : Res) : (s.setRes v).draws = s.draws := rfl
@[simp] theorem State.setRes_port (s : State) (v : Res) : (s.setRes v).port = s.port := rfl
@[simp] theorem State.setRes_stream (s : State) (v : Res) : (s.setRes v).stream = s.stream := rfl
@[simp] theorem State.setRes_pos (s : State) (v : Res) : (s.setRes v).pos = s.pos := rfl
@[simp] theorem State.setRes_inputs (s : State) (v : Res) : (s.setRes v).inputs = s.inputs := rfl

@[simp] theorem State.setDraws_phase (s : State) (v : Nat) : (s.setDraws v).phase = s.phase := rfl
@[simp] theorem State.setDraws_cnt (s : State) (v : Nat) : (s.setDraws v).cnt = s.cnt := rfl
@[simp] theorem State.setDraws_buf (s : State) (v : Nat) : (s.setDraws v).buf = s.buf := rfl
@[simp] theorem State.setDraws_timer (s : State) (v : Nat) : (s.setDraws v).timer = s.timer := rfl
@[simp] theorem State.setDraws_syncLimit (s : State) (v : Nat) : (s.setDraws v).syncLimit = s.syncLimit := rfl
@[simp] theorem State.setDraws_payloadLimit (s : State) (v : Nat) : (s.setDraws v).payloadLimit = s.payloadLimit := rfl
@[simp] theorem State.setDraws_res (s : State) (v : Nat) : (s.setDraws v).res = s.res := rfl
@[simp] theorem State.setDraws_draws (s : State) (v : Nat) : (s.setDraws v).draws = v := rfl
@[simp] theorem State.setDraws_port (s : State) (v : Nat) : (s.setDraws v).port = s.port := rfl
@[simp] theorem State.setDraws_stream (s : State) (v : Nat) : (s.setDraws v).stream = s.stream := rfl
@[simp] theorem State.setDraws_pos (s : State) (v : Nat) : (s.setDraws v).pos = s.pos := rfl
@[simp] theorem State.setDraws_inputs (s : State) (v : Nat) : (s.setDraws v).inputs = s.inputs := rfl

@[simp] theorem State.setPort_phase (s : State) (v : DecPort) : (s.setPort v).phase = s.phase := rfl
@[simp] theorem State.setPort_cnt (s : State) (v : DecPort) : (s.setPort v).cnt = s.cnt := rfl
@[simp] theorem State.setPort_buf (s : State) (v : DecPort) : (s.setPort v).buf = s.buf := rfl
@[simp] theorem State.setPort_timer (s : State) (v : DecPort) : (s.setPort v).timer = s.timer := rfl
@[simp] theorem State.setPort_syncLimit (s : State) (v : DecPort) : (s.setPort v).syncLimit = s.syncLimit := rfl
@[simp] theorem State.setPort_payloadLimit (s : State) (v : DecPort) : (s.setPort v).payloadLimit = s.payloadLimit := rfl
@[simp] theorem State.setPort_res (s : State) (v : DecPort) : (s.setPort v).res = s.res := rfl
@[simp] theorem State.setPort_draws (s : State) (v : DecPort) : (s.setPort v).draws = s.draws := rfl
@[simp] theorem State.setPort_port (s : State) (v : DecPort) : (s.setPort v).port = v := rfl
@[simp] theorem State.setPort_stream (s : State) (v : DecPort) : (s.setPort v).stream = s.stream := rfl
@[simp] theorem State.setPort_pos (s : State) (v : DecPort) : (s.setPort v).pos = s.pos := rfl
@[simp] theorem State.setPort_inputs (s : State) (v : DecPort) : (s.setPort v).inputs = s.inputs := rfl

@[simp] theorem State.setStream_phase (s : State) (v : List Byte) : (s.setStream v).phase = s.phase := rfl
@[simp] theorem State.setStream_cnt (s : State) (v : List Byte) : (s.setStream v).cnt = s.cnt := rfl
@[simp] theorem State.setStream_buf (s : State) (v : List Byte) : (s.setStream v).buf = s.buf := rfl
@[simp] theorem State.setStream_timer (s : State) (v : List Byte) : (s.setStream v).timer = s.timer := rfl
@[simp] theorem State.setStream_syncLimit (s : State) (v : List Byte) : (s.setStream v).syncLimit = s.syncLimit := rfl
@[simp] theorem State.setStream_payloadLimit (s : State) (v : List Byte) : (s.setStream v).payloadLimit = s.payloadLimit := rfl
@[simp] theorem State.setStream_res (s : State) (v : List Byte) : (s.setStream v).res = s.res := rfl
@[simp] theorem State.setStream_draws (s : State) (v : List Byte) : (s.setStream v).draws = s.draws := rfl
@[simp] theorem State.setStream_port (s : State) (v : List Byte) : (s.setStream v).port = s.port := rfl
@[simp] theorem State.setStream_stream (s : State) (v : List Byte) : (s.setStream v).stream = v := rfl
@[simp] theorem State.setStream_pos (s : State) (v : List Byte) : (s.setStream v).pos = s.pos := rfl
@[simp] theorem State.setStream_inputs (s : State) (v : List Byte) : (s.setStream v).inputs = s.inputs := rfl

@[simp] theorem State.setPos_phase (s : State) (v : Nat) : (s.setPos v).phase = s.phase := rfl
@[simp] theorem State.setPos_cnt (s : State) (v : Nat) : (s.setPos v).cnt = s.cnt := rfl
@[simp] theorem State.setPos_buf (s : State) (v : Nat) : (s.setPos v).buf = s.buf := rfl
@[simp] theorem State.setPos_timer (s : State) (v : Nat) : (s.setPos v).timer = s.timer := rfl
@[simp] theorem State.setPos_syncLimit (s : State) (v : Nat) : (s.setPos v).syncLimit = s.syncLimit := rfl
@[simp] theorem State.setPos_payloadLimit (s : State) (v : Nat) : (s.setPos v).payloadLimit = s.payloadLimit := rfl
@[simp] theorem State.setPos_res (s : State) (v : Nat) : (s.setPos v).res = s.res := rfl
@[simp] theorem State.setPos_draws (s : State) (v : Nat) : (s.setPos v).draws = s.draws := rfl
@[simp] theorem State.setPos_port (s : State) (v : Nat) : (s.setPos v).port = s.port := rfl
@[simp] theorem State.setPos_stream (s : State) (v : Nat) : (s.setPos v).stream = s.stream := rfl
@[simp] theorem State.setPos_pos (s : State) (v : Nat) : (s.setPos v).pos = v := rfl
@[simp] theorem State.setPos_inputs (s : State) (v : Nat) : (s.setPos v).inputs = s.inputs := rfl

@[simp] theorem State.setInputs_phase (s : State) (v : List Input) : (s.setInputs v).phase = s.phase := rfl
@[simp] theorem State.setInputs_cnt (s : State) (v : List Input) : (s.setInputs v).cnt = s.cnt := rfl
@[simp] theorem State.setInputs_buf (s : State) (v : List Input) : (s.setInputs v).buf = s.buf := rfl
@[simp] theorem State.setInputs_timer (s : State) (v : List Input) : (s.setInputs v).timer = s.timer := rfl
@[simp] theorem State.setInputs_syncLimit (s : State) (v : List Input) : (s.setInputs v).syncLimit = s.syncLimit := rfl
@[simp] theorem State.setInputs_payloadLimit (s : State) (v : List Input) : (s.setInputs v).payloadLimit = s.payloadLimit := rfl
@[simp] theorem State.setInputs_res (s : State) (v : List Input) : (s.setInputs v).res = s.res := rfl
@[simp] theorem State.setInputs_draws (s : State) (v : List Input) : (s.setInputs v).draws = s.draws := rfl
@[simp] theorem State.setInputs_port (s : State) (v : List Input) : (s.setInputs v).port = s.port := rfl
@[simp] theorem State.setInputs_stream (s : State) (v : List Input) : (s.setInputs v).stream = s.stream := rfl
@[simp] theorem State.setInputs_pos (s : State) (v : List Input) : (s.setInputs v).pos = s.pos := rfl
@[simp] theorem State.setInputs_inputs (s : State) (v : List Input) : (s.setInputs v).inputs = v := rfl

@[simp] theorem State.nextDraw_phase (s : State) : (s.nextDraw).phase = s.phase := rfl
@[simp] theorem State.nextDraw_cnt (s : State) : (s.nextDraw).cnt = s.cnt := rfl
@[simp] theorem State.nextDraw_buf (s : State) : (s.nextDraw).buf = s.buf := rfl
@[simp] theorem State.nextDraw_timer (s : State) : (s.nextDraw).timer = s.timer := rfl
@[simp] theorem State.nextDraw_syncLimit (s : State) : (s.nextDraw).syncLimit = s.syncLimit := rfl
@[simp] theorem State.nextDraw_payloadLimit (s : State) : (s.nextDraw).payloadLimit = s.payloadLimit := rfl
@[simp] theorem State.nextDraw_res (s : State) : (s.nextDraw).res = s.res := rfl
@[simp] theorem State.nextDraw_draws (s : State) : (s.nextDraw).draws = s.draws + 1 := rfl
@[simp] theorem State.nextDraw_port (s : State) : (s.nextDraw).port = s.port := rfl
@[simp] theorem State.nextDraw_stream (s : State) : (s.nextDraw).stream = s.stream := rfl
@[simp] theorem State.nextDraw_pos (s : State) : (s.nextDraw).pos = s.pos := rfl
@[simp] theorem State.nextDraw_inputs (s : State) : (s.nextDraw).inputs = s.inputs := rfl

@[simp] theorem memWrite_phase (a : Nat) (v : Byte) (s : State) : (memWrite s a v).phase = s.phase := rfl
@[simp] theorem memWrite_cnt (a : Nat) (v : Byte) (s : State) : (memWrite s a v).cnt = s.cnt := rfl
@[simp] theorem memWrite_buf (a : Nat) (v : Byte) (s : State) : (memWrite s a v).buf = Memory.write s.buf a v := rfl
@[simp] theorem memWrite_timer (a : Nat) (v : Byte) (s : State) : (memWrite s a v).timer = s.timer := rfl
@[simp] theorem memWrite_syncLimit (a : Nat) (v : Byte) (s : State) : (memWrite s a v).syncLimit = s.syncLimit := rfl
@[simp] theorem memWrite_payloadLimit (a : Nat) (v : Byte) (s : State) : (memWrite s a v).payloadLimit = s.payloadLimit := rfl
@[simp] theorem memWrite_res (a : Nat) (v : Byte) (s : State) : (memWrite s a v).res = s.res := rfl
@[simp] theorem memWrite_draws (a : Nat) (v : Byte) (s : State) : (memWrite s a v).draws = s.draws := rfl
@[simp] theorem memWrite_port (a : Nat) (v : Byte) (s : State) : (memWrite s a v).port = s.port := rfl
@[simp] theorem memWrite_stream (a : Nat) (v : Byte) (s : State) : (memWrite s a v).stream = s.stream := rfl
@[simp] theorem memWrite_pos (a : Nat) (v : Byte) (s : State) : (memWrite s a v).pos = s.pos := rfl
@[simp] theorem memWrite_inputs (a : Nat) (v : Byte) (s : State) : (memWrite s a v).inputs = s.inputs := rfl

@[simp] theorem deliver_phase (r : Res) (s : State) : (deliver r s).phase = .idle := rfl
@[simp] theorem deliver_cnt (r : Res) (s : State) : (deliver r s).cnt = s.cnt := rfl
@[simp] theorem deliver_buf (r : Res) (s : State) : (deliver r s).buf = s.buf := rfl
@[simp] theorem deliver_timer (r : Res) (s : State) : (deliver r s).timer = s.timer := rfl
@[simp] theorem deliver_syncLimit (r : Res) (s : State) : (deliver r s).syncLimit = s.syncLimit := rfl
@[simp] theorem deliver_payloadLimit (r : Res) (s : State) : (deliver r s).payloadLimit = s.payloadLimit := rfl
@[simp] theorem deliver_res (r : Res) (s : State) : (deliver r s).res = r := rfl
@[simp] theorem deliver_draws (r : Res) (s : State) : (deliver r s).draws = s.draws + 1 := rfl
@[simp] theorem deliver_port (r : Res) (s : State) : (deliver r s).port = s.port := rfl
@[simp] theorem deliver_stream (r : Res) (s : State) : (deliver r s).stream = s.stream := rfl
@[simp] theorem deliver_pos (r : Res) (s : State) : (deliver r s).pos = s.pos := rfl
@[simp] theorem deliver_inputs (r : Res) (s : State) : (deliver r s).inputs = s.inputs := rfl

@[simp] theorem raise_phase (k : ErrorKind) (s : State) : (raise k s).phase = .idle := rfl
@[simp] theorem raise_cnt (k : ErrorKind) (s : State) : (raise k s).cnt = s.cnt := rfl
@[simp] theorem raise_buf (k : ErrorKind) (s : State) : (raise k s).buf = s.buf := rfl
@[simp] theorem raise_timer (k : ErrorKind) (s : State) : (raise k s).timer = s.timer := rfl
@[simp] theorem raise_syncLimit (k : ErrorKind) (s : State) : (raise k s).syncLimit = s.syncLimit := rfl
@[simp] theorem raise_payloadLimit (k : ErrorKind) (s : State) : (raise k s).payloadLimit = s.payloadLimit := rfl
@[simp] theorem raise_res (k : ErrorKind) (s : State) : (raise k s).res = .err k := rfl
@[simp] theorem raise_draws (k : ErrorKind) (s : State) : (raise k s).draws = s.draws + 1 := rfl
@[simp] theorem raise_port (k : ErrorKind) (s : State) : (raise k s).port = s.port := rfl
@[simp] theorem raise_stream (k : ErrorKind) (s : State) : (raise k s).stream = s.stream := rfl
@[simp] theorem raise_pos (k : ErrorKind) (s : State) : (raise k s).pos = s.pos := rfl
@[simp] theorem raise_inputs (k : ErrorKind) (s : State) : (raise k s).inputs = s.inputs := rfl

@[simp] theorem portAnswer_phase (r : Res) (s : State) : (portAnswer r s).phase = s.phase := rfl
@[simp] theorem portAnswer_cnt (r : Res) (s : State) : (portAnswer r s).cnt = s.cnt := rfl
@[simp] theorem portAnswer_buf (r : Res) (s : State) : (portAnswer r s).buf = s.buf := rfl
@[simp] theorem portAnswer_timer (r : Res) (s : State) : (portAnswer r s).timer = s.timer := rfl
@[simp] theorem portAnswer_syncLimit (r : Res) (s : State) : (portAnswer r s).syncLimit = s.syncLimit := rfl
@[simp] theorem portAnswer_payloadLimit (r : Res) (s : State) : (portAnswer r s).payloadLimit = s.payloadLimit := rfl
@[simp] theorem portAnswer_res (r : Res) (s : State) : (portAnswer r s).res = s.res := rfl
@[simp] theorem portAnswer_draws (r : Res) (s : State) : (portAnswer r s).draws = s.draws := rfl
@[simp] theorem portAnswer_port (r : Res) (s : State) : (portAnswer r s).port = { s.port with out := r } := rfl
@[simp] theorem portAnswer_stream (r : Res) (s : State) : (portAnswer r s).stream = s.stream := rfl
@[simp] theorem portAnswer_pos (r : Res) (s : State) : (portAnswer r s).pos = s.pos := rfl
@[simp] theorem portAnswer_inputs (r : Res) (s : State) : (portAnswer r s).inputs = s.inputs := rfl

@[simp] theorem portField_phase (o : FieldOut) (s : State) : (portField o s).phase = s.phase := rfl
@[simp] theorem portField_cnt (o : FieldOut) (s : State) : (portField o s).cnt = s.cnt := rfl
@[simp] theorem portField_buf (o : FieldOut) (s : State) : (portField o s).buf = s.buf := rfl
@[simp] theorem portField_timer (o : FieldOut) (s : State) : (portField o s).timer = s.timer := rfl
@[simp] theorem portField_syncLimit (o : FieldOut) (s : State) : (portField o s).syncLimit = s.syncLimit := rfl
@[simp] theorem portField_payloadLimit (o : FieldOut) (s : State) : (portField o s).payloadLimit = s.payloadLimit := rfl
@[simp] theorem portField_res (o : FieldOut) (s : State) : (portField o s).res = s.res := rfl
@[simp] theorem portField_draws (o : FieldOut) (s : State) : (portField o s).draws = s.draws := rfl
@[simp] theorem portField_port (o : FieldOut) (s : State) : (portField o s).port = { s.port with field := o } := rfl
@[simp] theorem portField_stream (o : FieldOut) (s : State) : (portField o s).stream = s.stream := rfl
@[simp] theorem portField_pos (o : FieldOut) (s : State) : (portField o s).pos = s.pos := rfl
@[simp] theorem portField_inputs (o : FieldOut) (s : State) : (portField o s).inputs = s.inputs := rfl

@[simp] theorem portCode_phase (c : CodeOut) (s : State) : (portCode c s).phase = s.phase := rfl
@[simp] theorem portCode_cnt (c : CodeOut) (s : State) : (portCode c s).cnt = s.cnt := rfl
@[simp] theorem portCode_buf (c : CodeOut) (s : State) : (portCode c s).buf = s.buf := rfl
@[simp] theorem portCode_timer (c : CodeOut) (s : State) : (portCode c s).timer = s.timer := rfl
@[simp] theorem portCode_syncLimit (c : CodeOut) (s : State) : (portCode c s).syncLimit = s.syncLimit := rfl
@[simp] theorem portCode_payloadLimit (c : CodeOut) (s : State) : (portCode c s).payloadLimit = s.payloadLimit := rfl
@[simp] theorem portCode_res (c : CodeOut) (s : State) : (portCode c s).res = s.res := rfl
@[simp] theorem portCode_draws (c : CodeOut) (s : State) : (portCode c s).draws = s.draws := rfl
@[simp] theorem portCode_port (c : CodeOut) (s : State) : (portCode c s).port = { s.port with code := c } := rfl
@[simp] theorem portCode_stream (c : CodeOut) (s : State) : (portCode c s).stream = s.stream := rfl
@[simp] theorem portCode_pos (c : CodeOut) (s : State) : (portCode c s).pos = s.pos := rfl
@[simp] theorem portCode_inputs (c : CodeOut) (s : State) : (portCode c s).inputs = s.inputs := rfl

end Sys2Proof.Machine
end

