-- ==== Sys2Proof/Laws/Ops.lean ====
section
/-! SUPPORT. What each shared operation can do, said once. -/

namespace Sys2Proof.Machine

/-- An operation of a phase answers a next state in that phase only. -/
theorem inPhase_next {p : Phase} {r : Refusal} {s t u : State} :
    inPhase p r s t = .next u ↔ s.phase = p ∧ t = u := by
  unfold inPhase
  split <;> simp [*]

theorem inPhase_of_eq {p : Phase} {r : Refusal} {s t : State} (h : s.phase = p) : inPhase p r s t = .next t := by
  simp [inPhase, h]

theorem inPhase_of_ne {p : Phase} {r : Refusal} {s t : State} (h : s.phase ≠ p) : inPhase p r s t = .refused r := by
  simp [inPhase, h]

/-- A tick counts down or ends the phase. -/
theorem tickState_cases (k : ErrorKind) (s : State) :
    (s.timer ≠ 0 ∧ tickState k s = s.setTimer (s.timer - 1)) ∨ (s.timer = 0 ∧ tickState k s = raise k s) := by
  unfold tickState
  split
  · exact .inl ⟨‹_›, rfl⟩
  · exact .inr ⟨by omega, rfl⟩

/-- A time-out ends the phase or changes nothing. -/
theorem ttoState_cases (p : TtoPolicy) (k : ErrorKind) (s : State) :
    (p = .endPhase ∧ ttoState p k s = raise k s) ∨ (p = .tolerate ∧ ttoState p k s = s) := by
  cases p
  · exact .inl ⟨rfl, rfl⟩
  · exact .inr ⟨rfl, rfl⟩

/-- A payload byte answers a next state in PAYLOAD with room in the buffer only. -/
theorem execRxPayload_next {b : Byte} {now : Time} {s t : State} :
    execRxPayload b now s = .next t ↔ s.phase = .payload ∧ s.cnt < Config.frameLen ∧ rxPayloadState s b now = t := by
  unfold execRxPayload
  split
  · rename_i h
    simp only [reduceCtorEq, false_iff]
    intro h2
    omega
  · rename_i h
    rw [inPhase_next]
    constructor
    · rintro ⟨hp, ht⟩
      refine ⟨hp, ?_, ht⟩
      by_contra hc
      exact h ⟨hp, by omega⟩
    · rintro ⟨hp, -, ht⟩
      exact ⟨hp, ht⟩

/-- The window is five bytes once it is full. -/
theorem syncWindow_length (s : State) (b : Byte) :
    (syncWindow s b).length = if s.cnt < Config.markerLen then s.cnt + 1 else 5 := by
  unfold syncWindow
  split <;> simp

/-- A host write of a limit answers a next state in IDLE, for a number that fits, only. -/
theorem writeLimit_next {r : LimitReg} {v : Nat} {s t : State} :
    writeLimit r v s = .next t ↔ s.phase = .idle ∧ v < 2 ^ Config.timerW ∧ setLimit r v s = t := by
  unfold writeLimit
  by_cases hp : s.phase = .idle
  · by_cases hv : v < 2 ^ Config.timerW <;> simp [hp, hv]
  · simp [hp]

/-- Where nothing is pending the block waits. -/
theorem step_wait {s : State} (h : s.inputs = []) : step s = .next s := by
  simp [step, fetch, h]

/-- A step runs the operation the presented bytes decode to. -/
theorem step_word {s s' : State} {p : Port} {x : Wires} {bs rest : List Byte} {i : Instr} (hf : fetch s = .word p x bs s')
    (hd : decode p x bs = .ok i rest) : step s = exec i s' := by
  simp [step, hf, hd]

end Sys2Proof.Machine
end

