-- ==== Sys2Proof/Laws/Exec.lean ====
section
/-! SUPPORT. What one operation can do, said once: the operations of the decoder port write the port and nothing else,
and each event's next states. -/

namespace Sys2Proof.Machine

/-- An operation of the decoder port answers a next state that differs in the port only. -/
theorem exec_portOp {i : Instr} (h : isPortOp i = true) (s : State) : ∃ p, exec i s = .next (s.setPort p) := by
  cases i
  case reset | start | rxSync | rxPayload | ttoSync | ttoPayload | terrSync | terrPayload | tickSync | tickPayload
      | tickIdle => simp [isPortOp, portOf] at h
  case hcCurrent | hcMaximum | hcMinimum | hcAverage | hcInvalid =>
    simp only [exec, execHcCurrent, execHcMaximum, execHcMinimum, execHcAverage, execHcInvalid, mapHold]
    split <;> exact ⟨_, rfl⟩
  all_goals exact ⟨_, rfl⟩

/-- What an event answers, event by event: the phase it needs and the state it leaves. -/
theorem exec_event {i : Instr} {s t : State} (hi : isPortOp i = false) (h : exec i s = .next t) :
    (i = .reset ∧ t = resetState s) ∨
    (i = .start ∧ s.phase = .idle ∧ t = startState s) ∨
    (∃ b, i = .rxSync b ∧ s.phase = .sync ∧ t = rxSyncState s b) ∨
    (∃ b now, i = .rxPayload b now ∧ s.phase = .payload ∧ s.cnt < Config.frameLen ∧ t = rxPayloadState s b now) ∨
    (∃ k, s.phase ≠ .idle ∧ isBusyTick i = false ∧ (t = raise k s ∨ t = s) ∧ portOnly (.err k) = false) ∨
    (i = .tickSync ∧ s.phase = .sync ∧ t = tickState .syncTimeout s) ∨
    (i = .tickPayload ∧ s.phase = .payload ∧ t = tickState .payloadTimeout s) ∨
    (i = .tickIdle ∧ s.phase = .idle ∧ t = s) := by
  cases i
  case reset => cases h; exact .inl ⟨rfl, rfl⟩
  case start => obtain ⟨hp, rfl⟩ := inPhase_next.mp h; exact .inr (.inl ⟨rfl, hp, rfl⟩)
  case rxSync b => obtain ⟨hp, rfl⟩ := inPhase_next.mp h; exact .inr (.inr (.inl ⟨b, rfl, hp, rfl⟩))
  case rxPayload b now =>
    obtain ⟨hp, hc, rfl⟩ := execRxPayload_next.mp h
    exact .inr (.inr (.inr (.inl ⟨b, now, rfl, hp, hc, rfl⟩)))
  case ttoSync =>
    obtain ⟨hp, rfl⟩ := inPhase_next.mp h
    refine .inr (.inr (.inr (.inr (.inl ⟨.syncTimeout, by simp [hp], by simp [isBusyTick], ?_, rfl⟩))))
    rcases ttoState_cases Config.ttoPolicy .syncTimeout s with ⟨_, h⟩ | ⟨_, h⟩ <;> simp [h]
  case ttoPayload =>
    obtain ⟨hp, rfl⟩ := inPhase_next.mp h
    refine .inr (.inr (.inr (.inr (.inl ⟨.payloadTimeout, by simp [hp], by simp [isBusyTick], ?_, rfl⟩))))
    rcases ttoState_cases Config.ttoPolicy .payloadTimeout s with ⟨_, h⟩ | ⟨_, h⟩ <;> simp [h]
  case terrSync e =>
    obtain ⟨hp, rfl⟩ := inPhase_next.mp h
    exact .inr (.inr (.inr (.inr (.inl ⟨.io e, by simp [hp], by simp [isBusyTick], .inl rfl, rfl⟩))))
  case terrPayload e =>
    obtain ⟨hp, rfl⟩ := inPhase_next.mp h
    exact .inr (.inr (.inr (.inr (.inl ⟨.io e, by simp [hp], by simp [isBusyTick], .inl rfl, rfl⟩))))
  case tickSync =>
    obtain ⟨hp, rfl⟩ := inPhase_next.mp h
    exact .inr (.inr (.inr (.inr (.inr (.inl ⟨rfl, hp, rfl⟩)))))
  case tickPayload =>
    obtain ⟨hp, rfl⟩ := inPhase_next.mp h
    exact .inr (.inr (.inr (.inr (.inr (.inr (.inl ⟨rfl, hp, rfl⟩))))))
  case tickIdle =>
    obtain ⟨hp, rfl⟩ := inPhase_next.mp h
    exact .inr (.inr (.inr (.inr (.inr (.inr (.inr ⟨rfl, hp, rfl⟩))))))
  all_goals simp [isPortOp, portOf] at hi

/-- Operations in two parts. -/
theorem execAll_append (is js : List Instr) (s t : State) (h : execAll is s = .next t) :
    execAll (is ++ js) s = execAll js t := by
  induction is generalizing s with
  | nil => cases h; rfl
  | cons i is ih =>
    simp only [execAll, List.cons_append] at h ⊢
    split at h
    · exact ih _ h
    all_goals cases h

end Sys2Proof.Machine
end

