-- ==== Sys2Proof/Laws/SyncScan.lean ====
section
/-! SUPPORT. The detector: what storing the window leaves, and that the window is the last five bytes received. -/

namespace Sys2Proof.Machine

/-- Bytes of the buffer, named one by one. -/
theorem bufBytes_ext {s : State} {a n : Nat} {l : List Byte} (hl : l.length = n)
    (h : ∀ i, i < n → l[i]? = some (bufByte s (a + i))) : bufBytes s a n = l := by
  apply List.ext_getElem?
  intro i
  rw [bufBytes_getElem?]
  split
  · exact (h i ‹_›).symm
  · rw [List.getElem?_eq_none]; omega

/-- Every byte of the buffer after the window is stored. -/
theorem storeWindow_read (s : State) (b : Byte) (a : Nat) :
    Memory.read (storeWindow s b).buf a =
      if s.cnt < 5 then (if a = s.cnt then some b else Memory.read s.buf a)
      else if a < 5 then (syncWindow s b)[a]? else Memory.read s.buf a := by
  unfold storeWindow
  by_cases hc : s.cnt < 5
  · have : s.cnt < Config.markerLen := hc
    simp [this, hc]
  · have h1 : ¬ s.cnt < Config.markerLen := hc
    have hl := syncWindow_length s b
    simp only [h1, if_false] at hl
    simp only [h1, hc, if_false, State.setBuf_buf, Memory.read_writeList, Nat.zero_le, if_true, Nat.sub_zero]
    by_cases ha : a < 5 <;> simp [ha, hl]

theorem storeWindow_cnt (s : State) (b : Byte) :
    (storeWindow s b).cnt = if s.cnt < 5 then s.cnt + 1 else s.cnt := by
  unfold storeWindow
  by_cases hc : s.cnt < 5
  · have : s.cnt < Config.markerLen := hc
    simp [this, hc]
  · have h1 : ¬ s.cnt < Config.markerLen := hc
    simp [h1, hc]

/-- Storing the window writes BUF and CNT only. -/
theorem storeWindow_frame (s : State) (b : Byte) :
    storeWindow s b = { s with buf := (storeWindow s b).buf, cnt := (storeWindow s b).cnt } := by
  unfold storeWindow
  split <;> rfl

/-- The buffer holds the window it was given, in any state that shares its BUF. -/
theorem storeWindow_bytes (s : State) (b : Byte) (hc : s.cnt ≤ 5) (t : State) (hb : t.buf = (storeWindow s b).buf)
    (hd : t.draws = s.draws) : bufBytes t 0 (storeWindow s b).cnt = syncWindow s b := by
  have hl := syncWindow_length s b
  by_cases h5 : s.cnt < 5
  · have h5' : s.cnt < Config.markerLen := h5
    apply bufBytes_ext
    · rw [hl, storeWindow_cnt]; simp [h5, h5']
    · intro i hi
      rw [storeWindow_cnt, if_pos h5] at hi
      unfold syncWindow
      rw [if_pos h5', Nat.zero_add]
      simp only [bufByte, hb, hd]
      rw [storeWindow_read, if_pos h5]
      by_cases h : i = s.cnt
      · simp [h]
      · have : i < s.cnt := by omega
        rw [List.getElem?_append_left (by simp; exact this), bufBytes_getElem?]
        simp [h, this, bufByte]
  · have h5' : ¬ s.cnt < Config.markerLen := h5
    rw [if_neg h5'] at hl
    apply bufBytes_ext
    · rw [hl, storeWindow_cnt]; simp [h5]; omega
    · intro i hi
      rw [storeWindow_cnt, if_neg h5] at hi
      have hi5 : i < 5 := by omega
      rw [Nat.zero_add]
      simp only [bufByte, hb, hd]
      rw [storeWindow_read, if_neg h5, if_pos hi5]
      have : i < (syncWindow s b).length := by omega
      rw [List.getElem?_eq_getElem this]
      rfl

/-- The last five bytes received, fewer where fewer have come. -/
def last5 (bs : List Byte) : List Byte := bs.drop (bs.length - 5)

/-- The detector has taken the bytes `bs` from the state `s0` on, and none of them ended a marker. -/
structure Scanning (s0 : State) (bs : List Byte) (t : State) : Prop where
  phase : t.phase = .sync
  cnt : t.cnt = min 5 bs.length
  win : bufBytes t 0 t.cnt = last5 bs
  rest : ∃ buf cnt, t = { s0 with buf := buf, cnt := cnt }

theorem marker_suffix (bs : List Byte) : Config.marker <:+ bs ↔ last5 bs = Config.marker := by
  rw [List.suffix_iff_eq_drop]
  exact eq_comm

/-- The window a byte makes is the last five bytes with it. -/
theorem window_last5 {s t : State} {bs : List Byte} {b : Byte} (h : Scanning s bs t) :
    syncWindow t b = last5 (bs ++ [b]) := by
  unfold syncWindow
  have h5 : Config.markerLen = 5 := rfl
  have hc := h.cnt
  split
  · rename_i hlt
    rw [h.win]
    have e1 : bs.length - 5 = 0 := by omega
    have e2 : (bs ++ [b]).length - 5 = 0 := by simp; omega
    simp only [last5, e1, e2, List.drop_zero]
  · rename_i hlt
    have hc5 : t.cnt = 5 := by omega
    have hw := h.win
    rw [hc5] at hw
    have e : bufBytes t 1 4 = (bufBytes t 0 5).drop 1 := rfl
    rw [e, hw]
    unfold last5
    rw [List.drop_drop, List.length_append, List.length_singleton, List.drop_append_of_le_length (by omega)]
    congr 2
    omega

/-- A byte that ends no marker keeps the detector scanning. -/
theorem scan_next {s t : State} {bs : List Byte} {b : Byte} (h : Scanning s bs t)
    (hn : ¬ Config.marker <:+ bs ++ [b]) : ∃ u, exec (.rxSync b) t = .next u ∧ Scanning s (bs ++ [b]) u := by
  refine ⟨_, inPhase_of_eq h.phase, ?_⟩
  rw [marker_suffix, ← window_last5 h] at hn
  have he : rxSyncState t b = storeWindow t b := by unfold rxSyncState; rw [if_neg hn]
  rw [he]
  have hf := storeWindow_frame t b
  have hc := h.cnt
  obtain ⟨buf, cnt, hr⟩ := h.rest
  constructor
  · rw [hf]; exact h.phase
  · rw [storeWindow_cnt]; simp; split <;> omega
  · rw [storeWindow_bytes t b (by omega) _ rfl (by rw [hf]), window_last5 h]
  · exact ⟨(storeWindow t b).buf, (storeWindow t b).cnt, by rw [hf]; rw [hr]⟩

/-- Bytes that hold no marker keep the detector scanning. -/
theorem scan_all (s : State) (bs : List Byte) (hp : s.phase = .sync) (hc : s.cnt = 0)
    (hn : ¬ Config.marker <:+: bs) : ∃ t, execAll (rxSyncs bs) s = .next t ∧ Scanning s bs t := by
  induction bs using List.reverseRecOn with
  | nil => exact ⟨s, rfl, hp, by simp [hc], by simp [hc, bufBytes, last5], s.buf, s.cnt, rfl⟩
  | append_singleton bs b ih =>
    obtain ⟨t, ht, hs⟩ := ih (fun h => hn (h.trans (List.prefix_append bs [b]).isInfix))
    obtain ⟨u, hu, hsu⟩ := scan_next (b := b) hs (fun h => hn h.isInfix)
    refine ⟨u, ?_, hsu⟩
    simp only [rxSyncs, List.map_append, List.map_cons, List.map_nil] at ht ⊢
    rw [execAll_append _ _ _ _ ht]
    simp [execAll, hu]

end Sys2Proof.Machine
end

