-- ==== Sys2Proof/Laws/PayloadRead.lean ====
section
/-! SUPPORT. The payload bytes: what storing one leaves, and that Decode's answer is a result. -/

namespace Sys2Proof.Machine

theorem storePayload_read (s : State) (b : Byte) (a : Nat) :
    Memory.read (storePayload s b).buf a = if a = s.cnt then some b else Memory.read s.buf a := by
  simp [storePayload]

/-- The bytes before the stored one stay. -/
theorem storePayload_bytes (s : State) (b : Byte) (n : Nat) (h : n ≤ s.cnt) :
    bufBytes (storePayload s b) 0 n = bufBytes s 0 n := by
  apply bufBytes_ext (by simp)
  intro i hi
  rw [bufBytes_getElem?, if_pos hi, Nat.zero_add]
  simp only [bufByte, storePayload_read, if_neg (show i ≠ s.cnt by omega)]
  rfl

/-- The bytes up to the stored one. -/
theorem storePayload_all (s : State) (b : Byte) :
    bufBytes (storePayload s b) 0 (s.cnt + 1) = bufBytes s 0 s.cnt ++ [b] := by
  apply bufBytes_ext (by simp)
  intro i hi
  rw [Nat.zero_add]
  simp only [bufByte, storePayload_read]
  by_cases h : i = s.cnt
  · simp [h]
  · rw [List.getElem?_append_left (by simp; omega), bufBytes_getElem?, if_pos (by omega), Nat.zero_add, if_neg h]
    rfl

/-- A payload byte in PAYLOAD with room in the buffer. -/
theorem execRxPayload_ok {s : State} {b : Byte} {now : Time} (hp : s.phase = .payload) (hc : s.cnt ≤ 55) :
    exec (.rxPayload b now) s = .next (rxPayloadState s b now) :=
  execRxPayload_next.mpr ⟨hp, by simp [Config.frameLen]; omega, rfl⟩

/-- Decode always answers a result. -/
theorem decodeFrame_done (nan : Pattern) (buf : List Byte) (now : Time) : (decodeFrame nan buf now).kindCode ≠ 0 := by
  by_cases hl : buf.length = 56
  · by_cases hm : buf.take 5 = Config.marker
    · rw [decodeFrame_body hl hm]; split <;> simp [Res.kindCode]
    · rw [decodeFrame_sync hl hm]; simp [Res.kindCode]
  · rw [decodeFrame_size hl]; simp [Res.kindCode]

end Sys2Proof.Machine
end

