-- ==== Sys2Proof/Laws/PerInstr.lean ====
section
/-! SUPPORT. A family of statements about each operation as syntax: its encoding has the fixed bits of its row of
spec/opcode_table.json. -/

namespace Sys2Proof.Laws.EncodingRow

/-- The marker bytes, fixed whole. -/
def marked : List (Nat × Byte × Byte) :=
  [(0, 0xFF#8, 0xAA#8), (1, 0xFF#8, 0x55#8), (2, 0xFF#8, 0x00#8), (3, 0xFF#8, 0x34#8), (4, 0xFF#8, 0x01#8)]

/-- The bytes of a row's mask that are not 0, as offset, mask and match; the sentinel row HC.INVALID has none, its codes
are a range. -/
def fixedBytes : Instr → List (Nat × Byte × Byte)
  | .reset => [(0, 0x3F#8, 0x01#8)]
  | .start => [(0, 0xFF#8, 0x02#8)]
  | .rxSync _ => [(0, 0xFF#8, 0x44#8)]
  | .rxPayload _ _ => [(0, 0xFF#8, 0x84#8)]
  | .ttoSync => [(0, 0xFF#8, 0x48#8)]
  | .ttoPayload => [(0, 0xFF#8, 0x88#8)]
  | .terrSync _ => [(0, 0xFF#8, 0x50#8)]
  | .terrPayload _ => [(0, 0xFF#8, 0x90#8)]
  | .tickSync => [(0, 0xFF#8, 0x60#8)]
  | .tickPayload => [(0, 0xFF#8, 0xA0#8)]
  | .tickIdle => [(0, 0xFF#8, 0x20#8)]
  | .frame56 _ _ => marked
  | .frame56Valid _ _ => marked ++ [(53, 0xFC#8, 0x00#8)]
  | .frame56Current _ _ => marked ++ [(53, 0xFF#8, 0x00#8)]
  | .frame56Maximum _ _ => marked ++ [(53, 0xFF#8, 0x01#8)]
  | .frame56Minimum _ _ => marked ++ [(53, 0xFF#8, 0x02#8)]
  | .frame56Average _ _ => marked ++ [(53, 0xFF#8, 0x03#8)]
  | .fieldSync _ => marked
  | .fieldCf0 _ => []
  | .fieldCf1 _ => []
  | .fieldCf2 _ => []
  | .fieldCf3 _ => []
  | .fieldCe0 _ => []
  | .fieldCe1 _ => []
  | .fieldCe2 _ => []
  | .fieldCe3 _ => []
  | .fieldHf0 _ => []
  | .fieldHf1 _ => []
  | .fieldHf2 _ => []
  | .fieldHf3 _ => []
  | .fieldHe0 _ => []
  | .fieldHe1 _ => []
  | .fieldHe2 _ => []
  | .fieldHe3 _ => []
  | .fieldMt _ => []
  | .fieldUnk _ => []
  | .fieldHc _ => []
  | .fieldTr _ _ => []
  | .hcCurrent => [(0, 0xFF#8, 0x00#8)]
  | .hcMaximum => [(0, 0xFF#8, 0x01#8)]
  | .hcMinimum => [(0, 0xFF#8, 0x02#8)]
  | .hcAverage => [(0, 0xFF#8, 0x03#8)]
  | .hcInvalid _ => []

/-- The codes of HC.INVALID are 4 to 255. -/
def inRange : Instr → List Byte → Prop
  | .hcInvalid _, bs => 3 < bs.getD 0 0
  | _, _ => True

/-- Bytes of an operation: its row's, then 1 for a received byte. -/
def size : Instr → Nat
  | .reset => 1
  | .start => 1
  | .rxSync _ => 2
  | .rxPayload _ _ => 2
  | .ttoSync => 1
  | .ttoPayload => 1
  | .terrSync _ => 1
  | .terrPayload _ => 1
  | .tickSync => 1
  | .tickPayload => 1
  | .tickIdle => 1
  | .frame56 _ _ => 56
  | .frame56Valid _ _ => 56
  | .frame56Current _ _ => 56
  | .frame56Maximum _ _ => 56
  | .frame56Minimum _ _ => 56
  | .frame56Average _ _ => 56
  | .fieldSync _ => 5
  | .fieldCf0 _ => 4
  | .fieldCf1 _ => 4
  | .fieldCf2 _ => 4
  | .fieldCf3 _ => 4
  | .fieldCe0 _ => 1
  | .fieldCe1 _ => 1
  | .fieldCe2 _ => 1
  | .fieldCe3 _ => 1
  | .fieldHf0 _ => 4
  | .fieldHf1 _ => 4
  | .fieldHf2 _ => 4
  | .fieldHf3 _ => 4
  | .fieldHe0 _ => 1
  | .fieldHe1 _ => 1
  | .fieldHe2 _ => 1
  | .fieldHe3 _ => 1
  | .fieldMt _ => 4
  | .fieldUnk _ => 4
  | .fieldHc _ => 1
  | .fieldTr _ _ => 2
  | .hcCurrent => 1
  | .hcMaximum => 1
  | .hcMinimum => 1
  | .hcAverage => 1
  | .hcInvalid _ => 1

/-- A well-formed operation's encoding has its row's fixed bits, and its row's length and its operands'. -/
def Statement (i : Instr) : Prop :=
  i.wellFormed = true →
    (∀ c ∈ fixedBytes i, (encode i).getD c.1 0 &&& c.2.1 = c.2.2) ∧ inRange i (encode i) ∧ (encode i).length = size i

/-- A buffer that begins with the marker has the marker's bytes. -/
theorem marked_of_isFrame {buf : List Byte} (h : isFrame buf = true) :
    ∀ c ∈ marked, buf.getD c.1 0 &&& c.2.1 = c.2.2 := by
  simp only [isFrame, Bool.and_eq_true, decide_eq_true_eq] at h
  have key : ∀ k, k < 5 → buf.getD k 0 = Config.marker.getD k 0 := by
    intro k hk
    rw [← h.2]
    simp [List.getD_eq_getElem?_getD, List.getElem?_take_of_lt hk]
  intro c hc
  simp only [marked, List.mem_cons, List.not_mem_nil, or_false] at hc
  rcases hc with rfl | rfl | rfl | rfl | rfl
  all_goals
    rw [key _ (by decide)]
    decide

theorem of_isFrameOf {buf : List Byte} {hc : Byte} (h : isFrameOf buf hc = true) :
    ∀ c ∈ marked ++ [(53, 0xFF#8, hc)], buf.getD c.1 0 &&& c.2.1 = c.2.2 := by
  simp only [isFrameOf, Bool.and_eq_true, decide_eq_true_eq] at h
  intro c hcm
  rcases List.mem_append.mp hcm with hcm | hcm
  · exact marked_of_isFrame h.1 c hcm
  · simp only [List.mem_singleton] at hcm
    subst hcm
    exact BitVec.and_allOnes.trans h.2

theorem length_of_isFrame {buf : List Byte} (h : isFrame buf = true) : buf.length = 56 := by
  simp only [isFrame, Bool.and_eq_true, decide_eq_true_eq] at h
  exact h.1

theorem length_of_isFrameOf {buf : List Byte} {hc : Byte} (h : isFrameOf buf hc = true) : buf.length = 56 := by
  simp only [isFrameOf, Bool.and_eq_true] at h
  exact length_of_isFrame h.1

theorem hc_le_three {hc : Byte} (h : hc ≤ 3) : hc &&& 0xFC#8 = 0 := by
  revert h
  revert hc
  decide

theorem reset : Statement (.reset) := fun _ => ⟨by simp [fixedBytes, encode], trivial, rfl⟩

theorem start : Statement (.start) := fun _ => ⟨by simp [fixedBytes, encode], trivial, rfl⟩

theorem rxSync (b : Byte) : Statement (.rxSync b) := fun _ => ⟨by simp [fixedBytes, encode], trivial, rfl⟩

theorem rxPayload (b : Byte) (now : Time) : Statement (.rxPayload b now) := fun _ => ⟨by simp [fixedBytes, encode], trivial, rfl⟩

theorem ttoSync : Statement (.ttoSync) := fun _ => ⟨by simp [fixedBytes, encode], trivial, rfl⟩

theorem ttoPayload : Statement (.ttoPayload) := fun _ => ⟨by simp [fixedBytes, encode], trivial, rfl⟩

theorem terrSync (e : IoCode) : Statement (.terrSync e) := fun _ => ⟨by simp [fixedBytes, encode], trivial, rfl⟩

theorem terrPayload (e : IoCode) : Statement (.terrPayload e) := fun _ => ⟨by simp [fixedBytes, encode], trivial, rfl⟩

theorem tickSync : Statement (.tickSync) := fun _ => ⟨by simp [fixedBytes, encode], trivial, rfl⟩

theorem tickPayload : Statement (.tickPayload) := fun _ => ⟨by simp [fixedBytes, encode], trivial, rfl⟩

theorem tickIdle : Statement (.tickIdle) := fun _ => ⟨by simp [fixedBytes, encode], trivial, rfl⟩

theorem frame56 (buf : List Byte) (now : Time) : Statement (.frame56 buf now) := fun h => ⟨marked_of_isFrame h, trivial, length_of_isFrame h⟩

theorem frame56Valid (buf : List Byte) (now : Time) : Statement (.frame56Valid buf now) := by
  intro h
  simp only [Instr.wellFormed, Bool.and_eq_true, decide_eq_true_eq] at h
  refine ⟨?_, trivial, length_of_isFrame h.1⟩
  intro c hc
  rcases List.mem_append.mp hc with hc | hc
  · exact marked_of_isFrame h.1 c hc
  · simp only [List.mem_singleton] at hc
    subst hc
    exact hc_le_three h.2

theorem frame56Current (buf : List Byte) (now : Time) : Statement (.frame56Current buf now) := fun h => ⟨of_isFrameOf h, trivial, length_of_isFrameOf h⟩

theorem frame56Maximum (buf : List Byte) (now : Time) : Statement (.frame56Maximum buf now) := fun h => ⟨of_isFrameOf h, trivial, length_of_isFrameOf h⟩

theorem frame56Minimum (buf : List Byte) (now : Time) : Statement (.frame56Minimum buf now) := fun h => ⟨of_isFrameOf h, trivial, length_of_isFrameOf h⟩

theorem frame56Average (buf : List Byte) (now : Time) : Statement (.frame56Average buf now) := fun h => ⟨of_isFrameOf h, trivial, length_of_isFrameOf h⟩

theorem fieldSync (v : BitVec 40) : Statement (.fieldSync v) := by
  intro h
  simp only [Instr.wellFormed, decide_eq_true_eq] at h
  subst h
  exact ⟨by decide, trivial, rfl⟩

theorem fieldCf0 (v : Pattern) : Statement (.fieldCf0 v) := fun _ => ⟨by simp [fixedBytes], trivial, rfl⟩

theorem fieldCf1 (v : Pattern) : Statement (.fieldCf1 v) := fun _ => ⟨by simp [fixedBytes], trivial, rfl⟩

theorem fieldCf2 (v : Pattern) : Statement (.fieldCf2 v) := fun _ => ⟨by simp [fixedBytes], trivial, rfl⟩

theorem fieldCf3 (v : Pattern) : Statement (.fieldCf3 v) := fun _ => ⟨by simp [fixedBytes], trivial, rfl⟩

theorem fieldCe0 (v : Byte) : Statement (.fieldCe0 v) := fun _ => ⟨by simp [fixedBytes], trivial, rfl⟩

theorem fieldCe1 (v : Byte) : Statement (.fieldCe1 v) := fun _ => ⟨by simp [fixedBytes], trivial, rfl⟩

theorem fieldCe2 (v : Byte) : Statement (.fieldCe2 v) := fun _ => ⟨by simp [fixedBytes], trivial, rfl⟩

theorem fieldCe3 (v : Byte) : Statement (.fieldCe3 v) := fun _ => ⟨by simp [fixedBytes], trivial, rfl⟩

theorem fieldHf0 (v : Pattern) : Statement (.fieldHf0 v) := fun _ => ⟨by simp [fixedBytes], trivial, rfl⟩

theorem fieldHf1 (v : Pattern) : Statement (.fieldHf1 v) := fun _ => ⟨by simp [fixedBytes], trivial, rfl⟩

theorem fieldHf2 (v : Pattern) : Statement (.fieldHf2 v) := fun _ => ⟨by simp [fixedBytes], trivial, rfl⟩

theorem fieldHf3 (v : Pattern) : Statement (.fieldHf3 v) := fun _ => ⟨by simp [fixedBytes], trivial, rfl⟩

theorem fieldHe0 (v : Byte) : Statement (.fieldHe0 v) := fun _ => ⟨by simp [fixedBytes], trivial, rfl⟩

theorem fieldHe1 (v : Byte) : Statement (.fieldHe1 v) := fun _ => ⟨by simp [fixedBytes], trivial, rfl⟩

theorem fieldHe2 (v : Byte) : Statement (.fieldHe2 v) := fun _ => ⟨by simp [fixedBytes], trivial, rfl⟩

theorem fieldHe3 (v : Byte) : Statement (.fieldHe3 v) := fun _ => ⟨by simp [fixedBytes], trivial, rfl⟩

theorem fieldMt (v : Pattern) : Statement (.fieldMt v) := fun _ => ⟨by simp [fixedBytes], trivial, rfl⟩

theorem fieldUnk (v : BitVec 32) : Statement (.fieldUnk v) := fun _ => ⟨by simp [fixedBytes], trivial, rfl⟩

theorem fieldHc (v : Byte) : Statement (.fieldHc v) := fun _ => ⟨by simp [fixedBytes], trivial, rfl⟩

theorem fieldTr (v : BitVec 16) (now : Time) : Statement (.fieldTr v now) := fun _ => ⟨by simp [fixedBytes], trivial, rfl⟩

theorem hcCurrent : Statement (.hcCurrent) := fun _ => ⟨by simp [fixedBytes, encode], trivial, rfl⟩

theorem hcMaximum : Statement (.hcMaximum) := fun _ => ⟨by simp [fixedBytes, encode], trivial, rfl⟩

theorem hcMinimum : Statement (.hcMinimum) := fun _ => ⟨by simp [fixedBytes, encode], trivial, rfl⟩

theorem hcAverage : Statement (.hcAverage) := fun _ => ⟨by simp [fixedBytes, encode], trivial, rfl⟩

theorem hcInvalid (hc : Byte) : Statement (.hcInvalid hc) := by
  intro h
  simp only [Instr.wellFormed, decide_eq_true_eq] at h
  exact ⟨by simp [fixedBytes], h, rfl⟩

end Sys2Proof.Laws.EncodingRow
end

