-- ==== Sys2Proof/Laws/Step.lean ====
section
/-! SUPPORT. What a step does with each kind of port activity, and everything a step can do, said once. -/

namespace Sys2Proof.Machine

/-- An event that carries no byte of the stream: the step runs what its operation byte decodes to, or
is refused for the reason they are none. -/
theorem step_event {s : State} {k : EventKind} {now : Time} {e : IoCode} {more : List Input}
    (hi : s.inputs = .event (eventCode k) now e :: more) (hk : k ≠ .rx) :
    step s = match decodeEventIn k s.phase { now := now, err := e } [] with
      | .ok i _ => exec i (s.setInputs more)
      | .reject r => .refused (rejection r) := by
  have hd := fun x bs => decodeEvent_opByte s.phase x bs (eventOf_eventCode k)
  cases k
  · simp [step, fetch, hi, fetchInput, fetchEvent, decode, hd] <;> rfl
  · simp [step, fetch, hi, fetchInput, fetchEvent, decode, hd] <;> rfl
  · exact absurd rfl hk
  · simp [step, fetch, hi, fetchInput, fetchEvent, decode, hd] <;> rfl
  · simp [step, fetch, hi, fetchInput, fetchEvent, decode, hd] <;> rfl
  · simp [step, fetch, hi, fetchInput, fetchEvent, decode, hd] <;> rfl

/-- RX in IDLE is refused: no byte is requested. -/
theorem step_rx_idle {s : State} {now : Time} {e : IoCode} {more : List Input}
    (hi : s.inputs = .event (eventCode .rx) now e :: more) (hp : s.phase = .idle) : step s = .refused .notEnabled := by
  have hd := fun x bs => decodeEvent_opByte s.phase x bs (eventOf_eventCode .rx)
  rw [hp] at hd
  simp [step, fetch, hi, fetchInput, fetchEvent, decode, hd, hp, decodeEventIn, rejection]

/-- RX with no byte in the transport is refused. -/
theorem step_rx_empty {s : State} {now : Time} {e : IoCode} {more : List Input}
    (hi : s.inputs = .event (eventCode .rx) now e :: more) (hp : s.phase ≠ .idle) (hs : s.stream = []) :
    step s = .refused .noByte := by
  simp [step, fetch, hi, fetchInput, fetchEvent, hp, hs]

/-- RX in SYNC runs RX.SYNC on the first byte of the stream, taken from it. -/
theorem step_rx_sync {s : State} {now : Time} {e : IoCode} {more : List Input} {b : Byte} {bs : List Byte}
    (hi : s.inputs = .event (eventCode .rx) now e :: more) (hp : s.phase = .sync) (hs : s.stream = b :: bs) :
    step s = exec (.rxSync b) (((s.setInputs more).setStream bs).setPos (s.pos + 1)) := by
  have hd := fun x bs => decodeEvent_opByte s.phase x bs (eventOf_eventCode .rx)
  rw [hp] at hd
  simp [step, fetch, hi, fetchInput, fetchEvent, decode, hd, hp, hs, decodeEventIn, takeLe_one]

/-- RX in PAYLOAD runs RX.PAYLOAD on the first byte of the stream and the clock of that step. -/
theorem step_rx_payload {s : State} {now : Time} {e : IoCode} {more : List Input} {b : Byte} {bs : List Byte}
    (hi : s.inputs = .event (eventCode .rx) now e :: more) (hp : s.phase = .payload) (hs : s.stream = b :: bs) :
    step s = exec (.rxPayload b now) (((s.setInputs more).setStream bs).setPos (s.pos + 1)) := by
  have hd := fun x bs => decodeEvent_opByte s.phase x bs (eventOf_eventCode .rx)
  rw [hp] at hd
  simp [step, fetch, hi, fetchInput, fetchEvent, decode, hd, hp, hs, decodeEventIn, takeLe_one]

/-- A vector that is no event is refused. -/
theorem step_not_one_hot {s : State} {ev : BitVec 6} {now : Time} {e : IoCode} {more : List Input}
    (hi : s.inputs = .event ev now e :: more) (hk : eventOf ev = none) : step s = .refused .notOneHot := by
  simp [step, fetch, hi, fetchInput, fetchEvent, decode, hk, decodeEvent_none, rejection]

/-- A field at the decoder port is read at its offset. -/
theorem step_field {s : State} {off : Nat} {bytes rest : List Byte} {now : Time} {more : List Input} {i : Instr}
    (hi : s.inputs = .field off bytes now :: more) (hw : fieldWidth off = some bytes.length)
    (hd : decodeField off (Wires.ofClock now) bytes = .ok i rest) :
    step s = exec i (s.setInputs more) := by
  refine step_word (p := .field off) (x := (Wires.ofClock now)) (bs := bytes) (rest := rest) ?_ hd
  simp [fetch, hi, fetchInput, fetchField, hw]

/-- A 32-bit field at the decoder port answers what its row makes of its four bytes. -/
theorem step_field32 {s : State} {off : Nat} {bytes : List Byte} {now : Time} {more : List Input} {mk : Pattern → Instr}
    {f : Pattern → FieldOut} (hi : s.inputs = .field off bytes now :: more) (hl : bytes.length = 4)
    (hw : fieldWidth off = some 4) (hd : decodeField off (Wires.ofClock now) = takeField32 mk)
    (hx : ∀ v s, exec (mk v) s = .next (portField (f v) s)) :
    step s = .next (portField (f (BitVec.ofNat 32 (leValue bytes))) (s.setInputs more)) := by
  have hv := takeField32_val (mk := mk) (tail := []) hl
  rw [List.append_nil] at hv
  rw [step_field hi (hw.trans (hl ▸ rfl)) ((congrFun hd bytes).trans hv), hx]

/-- A one-byte field at the decoder port answers what its row makes of its byte. -/
theorem step_field8 {s : State} {off : Nat} {bytes : List Byte} {now : Time} {more : List Input} {mk : Byte → Instr}
    {f : Byte → FieldOut} (hi : s.inputs = .field off bytes now :: more) (hl : bytes.length = 1)
    (hw : fieldWidth off = some 1) (hd : decodeField off (Wires.ofClock now) = takeField8 mk)
    (hx : ∀ v s, exec (mk v) s = .next (portField (f v) s)) :
    step s = .next (portField (f (BitVec.ofNat 8 (leValue bytes))) (s.setInputs more)) := by
  have hv := takeField8_val (mk := mk) (tail := []) hl
  rw [List.append_nil] at hv
  rw [step_field hi (hw.trans (hl ▸ rfl)) ((congrFun hd bytes).trans hv), hx]

/-- One more field of a run. -/
theorem fieldRun_cons {s t u : State} {os : List FieldOut} {n : Nat} (h : step s = .next t)
    (hr : fieldRun n t = some (os, u)) : fieldRun (n + 1) s = some (t.port.field :: os, u) := by
  simp only [fieldRun, h, hr, Option.map_some]

/-- A field of the frame is an operation of the decoder port. -/
theorem decodeField_portOp {off : Nat} {x : Wires} {bs rest : List Byte} {i : Instr} (h : decodeField off x bs = .ok i rest) :
    isPortOp i = true := by
  unfold decodeField at h
  split at h
  case h_1 => obtain ⟨-, h⟩ := takeLe_ok h; cases h; rfl
  case h_21 => obtain ⟨-, h⟩ := takeLe_ok h; cases h; rfl
  case h_22 => cases h
  all_goals first
    | (obtain ⟨v, rfl, -⟩ := takeField32_ok h; rfl)
    | (obtain ⟨v, rfl, -⟩ := takeField8_ok h; rfl)

/-- What any port but the event port decodes is an operation of the decoder port. -/
theorem decode_portOp {p : Port} {x : Wires} {bs rest : List Byte} {i : Instr} (hp : p ≠ .event)
    (h : decode p x bs = .ok i rest) : isPortOp i = true := by
  cases p with
  | event => exact absurd rfl hp
  | field off => exact decodeField_portOp h
  | code =>
    cases bs with
    | nil => cases h
    | cons hc bs =>
      simp only [decode, decodeCode] at h
      repeat' split at h
      all_goals cases h; rfl
  | frame view n =>
    simp only [decode, decodeFrameWord] at h
    split at h
    · cases h
    split at h
    · rename_i heq
      cases h
      cases view <;> simp only [frameRow] at heq
      · cases heq; rfl
      all_goals
        repeat' split at heq
        all_goals cases heq
        all_goals rfl
    · cases h

/-- Everything a step can do: wait, a host write, an event that carries no byte, RX in SYNC, RX in PAYLOAD, an operation of
the decoder port. -/
theorem step_cases {s t : State} (h : step s = .next t) :
    (s.inputs = [] ∧ t = s) ∨
    (∃ r v more, s.inputs = (match r with | .sync => .writeSyncLimit v | .payload => .writePayloadLimit v) :: more ∧
      writeLimit r v (s.setInputs more) = .next t) ∨
    (∃ k now e more i, s.inputs = .event (eventCode k) now e :: more ∧ k ≠ .rx ∧ isPortOp i = false ∧
      exec i (s.setInputs more) = .next t) ∨
    (∃ now e more b bs, s.inputs = .event (eventCode .rx) now e :: more ∧ s.phase = .sync ∧ s.stream = b :: bs ∧
      exec (.rxSync b) (((s.setInputs more).setStream bs).setPos (s.pos + 1)) = .next t) ∨
    (∃ now e more b bs, s.inputs = .event (eventCode .rx) now e :: more ∧ s.phase = .payload ∧ s.stream = b :: bs ∧
      exec (.rxPayload b now) (((s.setInputs more).setStream bs).setPos (s.pos + 1)) = .next t) ∨
    (∃ x more p w bs i rest, s.inputs = x :: more ∧ (∀ ev now e, x ≠ .event ev now e) ∧
      fetchInput x (s.setInputs more) = .word p w bs (s.setInputs more) ∧ decode p w bs = .ok i rest ∧
      isPortOp i = true ∧ exec i (s.setInputs more) = .next t) := by
  cases hi : s.inputs with
  | nil => rw [step_wait hi] at h; cases h; exact .inl ⟨rfl, rfl⟩
  | cons x more =>
    right
    have port : (∀ ev now e, x ≠ .event ev now e) → ∀ p w bs, p ≠ .event →
        fetchInput x (s.setInputs more) = .word p w bs (s.setInputs more) →
        ∃ x' more' p w bs i rest, x :: more = x' :: more' ∧ (∀ ev now e, x' ≠ .event ev now e) ∧
          fetchInput x' (s.setInputs more') = .word p w bs (s.setInputs more') ∧ decode p w bs = .ok i rest ∧
          isPortOp i = true ∧ exec i (s.setInputs more') = .next t := by
      intro hx p w bs hp hf
      have hf' : fetch s = .word p w bs (s.setInputs more) := by unfold fetch; rw [hi]; exact hf
      simp only [step, hf'] at h
      split at h
      · rename_i i rest hd
        exact ⟨x, more, p, w, bs, i, rest, rfl, hx, hf, hd, decode_portOp hp hd, h⟩
      · cases h
    cases x with
    | event ev now e =>
      right
      cases hk : eventOf ev with
      | none => rw [step_not_one_hot hi hk] at h; cases h
      | some k =>
        obtain rfl := eventCode_of_eventOf hk
        by_cases hrx : k = .rx
        · subst hrx
          right
          cases hp : s.phase with
          | idle => rw [step_rx_idle hi hp] at h; cases h
          | sync =>
            cases hs : s.stream with
            | nil => rw [step_rx_empty hi (by simp [hp]) hs] at h; cases h
            | cons b bs =>
              rw [step_rx_sync hi hp hs] at h
              exact .inl ⟨now, e, more, b, bs, rfl, rfl, rfl, h⟩
          | payload =>
            cases hs : s.stream with
            | nil => rw [step_rx_empty hi (by simp [hp]) hs] at h; cases h
            | cons b bs =>
              rw [step_rx_payload hi hp hs] at h
              exact .inr (.inl ⟨now, e, more, b, bs, rfl, rfl, rfl, h⟩)
        · left
          rw [step_event hi hrx] at h
          split at h
          · rename_i i rest hd
            refine ⟨k, now, e, more, i, rfl, hrx, ?_, h⟩
            cases k <;> cases hp : s.phase <;> simp [hp, decodeEventIn] at hd hrx <;> obtain ⟨rfl, -⟩ := hd <;> rfl
          · cases h
    | frame view buf now =>
      exact .inr (.inr (.inr (.inr (port (by simp) (.frame view buf.length) _ _ (by simp) rfl))))
    | field off bytes now =>
      have hf : fetchInput (.field off bytes now) (s.setInputs more) =
            .word (.field off) (Wires.ofClock now) bytes (s.setInputs more) ∨
          ∃ r, fetchInput (.field off bytes now) (s.setInputs more) = .none r := by
        simp only [fetchInput, fetchField]
        split
        · exact .inr ⟨_, rfl⟩
        · split
          · exact .inl rfl
          · exact .inr ⟨_, rfl⟩
      rcases hf with hf | ⟨r, hf⟩
      · exact .inr (.inr (.inr (.inr (port (by simp) (.field off) _ _ (by simp) hf))))
      · simp only [step, fetch, hi, hf] at h; cases h
    | code hc => exact .inr (.inr (.inr (.inr (port (by simp) .code _ _ (by simp) rfl))))
    | writeSyncLimit v =>
      simp only [step, fetch, hi, fetchInput] at h
      exact .inl ⟨.sync, v, more, rfl, h⟩
    | writePayloadLimit v =>
      simp only [step, fetch, hi, fetchInput] at h
      exact .inl ⟨.payload, v, more, rfl, h⟩

/-- One more step of any machine, where the first answers a next state. -/
theorem run_next (M : Host.Core) {s t : M.State} (k : Nat) (h : M.step s = .next t) : M.run (k + 1) s = M.run k t := by
  simp only [Host.Core.run, h]

/-- A run in two parts, for any machine. -/
theorem run_next_add (M : Host.Core) {s t : M.State} (k m : Nat) (h : M.run k s = .next t) :
    M.run (k + m) s = M.run m t := by
  induction k generalizing s with
  | zero => simp only [Host.Core.run] at h; cases h; rw [Nat.zero_add]
  | succ k ih =>
    rw [Nat.succ_add]
    simp only [Host.Core.run] at h ⊢
    split at h
    · exact ih h
    · cases h
    · cases h

/-- One more step. -/
theorem run_succ {s t : State} (k : Nat) (h : step s = .next t) :
    Host.Core.run core (k + 1) s = Host.Core.run core k t :=
  run_next core k h

/-- A run in two parts. -/
theorem run_add {s t : State} (k m : Nat) (h : Host.Core.run core k s = .next t) :
    Host.Core.run core (k + m) s = Host.Core.run core m t :=
  run_next_add core k m h

end Sys2Proof.Machine
end

