-- ==== Sys2Proof/Tests/Slice0.lean ====
section
/-! SUPPORT. Tests. Expected values are those of spec/95_test_vectors.md (vector names in the comments) or words written
out from spec/30_encoding.md and spec/opcode_table.json; the last section gives, for every statement with hypotheses, values
that meet them. -/

namespace Sys2Proof.Tests

open Sys2Proof Sys2Proof.Machine

/-! ### Small states and frames -/

/-- A part of the next state, where there is one. -/
def after {α : Type} (o : Host.Outcome State Fault Refusal) (f : State → α) : Option α :=
  match o with
  | .next t => some (f t)
  | .fault _ => none
  | .refused _ => none

/-- The reason of a refusal. -/
def why (o : Host.Outcome State Fault Refusal) : Option Refusal :=
  match o with
  | .next _ => none
  | .fault _ => none
  | .refused r => some r

/-- In a phase with the bytes `bs` in the buffer, both limits 7. -/
def inRead (p : Phase) (bs : List Byte) (timer : Nat) : State :=
  { State.reset with
    phase := p, cnt := bs.length, buf := Memory.writeList [] 0 bs, timer := timer, syncLimit := 7, payloadLimit := 7 }

/-- The same with port activity pending and bytes in the transport. -/
def withPort (s : State) (stream : List Byte) (inputs : List Input) : State :=
  { s with stream := stream, inputs := inputs }

/-- The marker, offsets 0 to 4. -/
def mark : List Byte := [0xAA#8, 0x55#8, 0x00#8, 0x34#8, 0x01#8]

/-- Frame A up to offset 24. -/
def frameA0 : List Byte :=
  mark ++ [0x98#8, 0x94#8, 0xD5#8, 0x41#8, 0x00#8, 0x00#8, 0x00#8, 0x00#8, 0x2D#8, 0x02#8, 0xD5#8, 0x41#8, 0x6C#8,
    0x25#8, 0x85#8, 0x42#8, 0x00#8, 0x30#8, 0x30#8, 0x30#8]

/-- Frame A from offset 25 to 52. -/
def frameA1 : List Byte :=
  [0x98#8, 0x94#8, 0xD5#8, 0x41#8, 0x00#8, 0x00#8, 0x00#8, 0x00#8, 0x2D#8, 0x02#8, 0xD5#8, 0x41#8, 0x6C#8, 0x25#8,
    0x85#8, 0x42#8, 0x00#8, 0x00#8, 0x00#8, 0x00#8, 0x00#8, 0x80#8, 0xD2#8, 0x41#8] ++ [0x00#8, 0x00#8, 0x00#8, 0x00#8]

/-- Frame A with the hold-type byte `hc`; `frameA 0` is the source's example (V1). -/
def frameA (hc : Byte) : List Byte := frameA0 ++ frameA1 ++ [hc, 0x0D#8, 0x15#8]

/-- Frame B. -/
def frameB : List Byte :=
  mark ++ [0x00#8, 0x00#8, 0xC8#8, 0x41#8, 0x00#8, 0x00#8, 0xBC#8, 0x41#8, 0x00#8, 0x80#8, 0xAB#8, 0x44#8, 0x00#8,
    0x00#8, 0x20#8, 0xC2#8, 0x00#8, 0x00#8, 0x01#8, 0x00#8] ++
  [0x00#8, 0x00#8, 0xC9#8, 0x42#8, 0x00#8, 0x00#8, 0xBC#8, 0x41#8, 0x00#8, 0x00#8, 0xAA#8, 0x41#8, 0x00#8, 0x00#8,
    0x20#8, 0xC2#8, 0x00#8, 0x00#8, 0x00#8, 0xFF#8, 0x00#8, 0x00#8, 0xB0#8, 0x41#8] ++
  [0xDE#8, 0xAD#8, 0xBE#8, 0xEF#8, 0x02#8, 0xFF#8, 0xFF#8]

/-- Frame C: the marker, zeros, hold type FF (V3). -/
def frameC : List Byte := mark ++ List.replicate 48 0x00#8 ++ [0xFF#8, 0x00#8, 0x00#8]

/-- Frame A with the unknown field DE AD BE EF and the trailer 00 00 (DV14, DV15). -/
def frameAOther : List Byte :=
  frameA0 ++ frameA1.take 24 ++ [0xDE#8, 0xAD#8, 0xBE#8, 0xEF#8] ++ [0x00#8, 0x00#8, 0x00#8]

/-- Frame A with other bytes in the flagged channel 1, offsets 9 to 12. -/
def frameAFlagged : List Byte :=
  frameA0.take 9 ++ [0x11#8, 0x22#8, 0x33#8, 0x44#8] ++ frameA0.drop 13 ++ frameA1 ++ [0x00#8, 0x0D#8, 0x15#8]

/-- Frame D with a held flag set at offset 41, and the same with another value in held channel 0. -/
def frameHeld (v : Byte) : List Byte :=
  mark ++ List.replicate 20 0x00#8 ++ [v, v, v, v] ++ List.replicate 12 0x00#8 ++ [0x01#8] ++ List.replicate 14 0x00#8

/-- The default sentinel pattern (spec/92_eei_decisions.md D11), given to Decode in the vectors. -/
def nan : Pattern := 0x7FC00000#32

/-- A value of the clock; nothing is known of the type but that it has one. -/
def noon : Time := OpenType.first

/-- A transport's error payload, likewise. -/
def lost : IoCode := OpenType.first

/-- What the wires hold in the tests. -/
def wires : Wires := { now := noon, err := lost }

/-! ### WellFormed refuses an ill-formed term of every kind -/

theorem test_wf_frame_length : (Instr.frame56 (frameA 0 ++ [0]) noon).wellFormed = false := by decide
theorem test_wf_frame_marker : (Instr.frame56 (0xAB#8 :: (frameA 0).tail) noon).wellFormed = false := by decide
theorem test_wf_frame_ok : (Instr.frame56 (frameA 9) noon).wellFormed = true := by decide
theorem test_wf_valid_code : (Instr.frame56Valid (frameA 4) noon).wellFormed = false := by decide
theorem test_wf_valid_ok : (Instr.frame56Valid (frameA 3) noon).wellFormed = true := by decide
theorem test_wf_current : (Instr.frame56Current (frameA 1) noon).wellFormed = false := by decide
theorem test_wf_maximum : (Instr.frame56Maximum (frameA 0) noon).wellFormed = false := by decide
theorem test_wf_minimum : (Instr.frame56Minimum (frameA 3) noon).wellFormed = false := by decide
theorem test_wf_average : (Instr.frame56Average (frameA 2) noon).wellFormed = false := by decide
theorem test_wf_sync_field : (Instr.fieldSync 0x01340055AB#40).wellFormed = false := by decide
theorem test_wf_invalid_code : (Instr.hcInvalid 3).wellFormed = false := by decide
theorem test_wf_invalid_ok : (Instr.hcInvalid 4).wellFormed = true := by decide

/-! ### Decoding: one word for every constructor, written from spec/30_encoding.md R46, R51, R56, R57 -/

/-- PHASE 0: EV 1, 2, 32. -/
theorem test_decode_idle_events :
    decode .event wires [0x01#8] = .ok .reset [] ∧ decode .event wires [0x02#8] = .ok .start [] ∧
    decode .event wires [0x20#8] = .ok .tickIdle [] := by decide

/-- PHASE 1 is 0x40: EV 4, 8, 16, 32; the received byte follows, the error payload is on its wire. -/
theorem test_decode_sync_events :
    decode .event wires [0x44#8, 0x34#8] = .ok (.rxSync 0x34#8) [] ∧ decode .event wires [0x48#8] = .ok .ttoSync [] ∧
    decode .event wires [0x50#8] = .ok (.terrSync lost) [] ∧
    decode .event wires [0x60#8] = .ok .tickSync [] := by decide

/-- PHASE 2 is 0x80; the clock is on its wire. -/
theorem test_decode_payload_events :
    decode .event wires [0x84#8, 0x15#8] = .ok (.rxPayload 0x15#8 noon) [] ∧
    decode .event wires [0x88#8] = .ok .ttoPayload [] ∧
    decode .event wires [0x90#8] = .ok (.terrPayload lost) [] ∧
    decode .event wires [0xA0#8] = .ok .tickPayload [] := by decide

/-- What no event is: two bits of EV, none, PHASE 3, no byte (spec/30_encoding.md R56, R57). -/
theorem test_decode_rejects_events :
    decode .event wires [0x03#8] = .reject .notOneHot ∧ decode .event wires [0x40#8] = .reject .notOneHot ∧
    decode .event wires [0xE0#8] = .reject .noSuchPhase ∧ decode .event wires [0x44#8] = .reject .truncated ∧
    decode .event wires [0x08#8] = .reject .notEnabled ∧ decode .event wires [0x82#8] = .reject .startWhileBusy := by decide

/-- RESET's row does not compare the phase bits. -/
theorem test_decode_reset_any_phase :
    decode .event wires [0x41#8] = .ok .reset [] ∧ decode .event wires [0x81#8] = .ok .reset [] := by decide

/-- Each field with its own value at its own offset, the least significant byte first. -/
theorem test_decode_value_fields :
    ∀ p ∈ [(5, Instr.fieldCf0), (9, .fieldCf1), (13, .fieldCf2), (17, .fieldCf3), (25, .fieldHf0), (29, .fieldHf1),
        (33, .fieldHf2), (37, .fieldHf3), (45, .fieldMt), (49, .fieldUnk)],
      decode (.field p.1) wires [0x98#8, 0x94#8, 0xD5#8, 0x41#8] = .ok (p.2 0x41D59498#32) [] := by decide

theorem test_decode_byte_fields :
    ∀ p ∈ [(21, Instr.fieldCe0), (22, .fieldCe1), (23, .fieldCe2), (24, .fieldCe3), (41, .fieldHe0), (42, .fieldHe1),
        (43, .fieldHe2), (44, .fieldHe3), (53, .fieldHc)],
      decode (.field p.1) wires [0x30#8] = .ok (p.2 0x30#8) [] := by decide

theorem test_decode_marker_and_trailer :
    decode (.field 0) wires mark = .ok (.fieldSync 0x01340055AA#40) [] ∧
    decode (.field 54) wires [0x0D#8, 0x15#8] = .ok (.fieldTr 0x150D#16 noon) [] ∧
    decode (.field 6) wires mark = .reject .noFieldAtOffset := by decide

theorem test_decode_codes :
    decode .code wires [0x00#8] = .ok .hcCurrent [] ∧ decode .code wires [0x01#8] = .ok .hcMaximum [] ∧
    decode .code wires [0x02#8] = .ok .hcMinimum [] ∧ decode .code wires [0x03#8] = .ok .hcAverage [] ∧
    decode .code wires [0x04#8] = .ok (.hcInvalid 4) [] ∧ decode .code wires [0xFF#8] = .ok (.hcInvalid 0xFF#8) [] := by decide

/-- Frames in the three views. -/
theorem test_decode_frames :
    decode (.frame .whole 56) wires (frameA 9) = .ok (.frame56 (frameA 9) noon) [] ∧
    decode (.frame .valid 56) wires (frameA 2) = .ok (.frame56Valid (frameA 2) noon) [] ∧
    decode (.frame .valid 56) wires (frameA 4) = .reject .notInRow := by decide

theorem test_decode_frame_variants :
    ∀ p ∈ [(0, Instr.frame56Current), (1, .frame56Maximum), (2, .frame56Minimum), (3, .frame56Average)],
      decode (.frame .variant 56) wires (frameA p.1) = .ok (p.2 (frameA p.1) noon) [] := by decide

/-- The table's numbering: bit 0 is the least significant bit of the first byte. -/
theorem test_table_events :
    decodeTableWord 8 0x44 = some (.rxSync 0) ∧ decodeTableWord 8 0x90 = some (.terrPayload lost) ∧
    decodeTableWord 8 0x20 = some .tickIdle ∧ decodeTableWord 8 0x00 = some .hcCurrent ∧
    decodeTableWord 8 0x07 = some (.hcInvalid 7) := by decide

theorem test_table_fields :
    decodeTableWord 40 0x01340055AA = some (.fieldSync 0x01340055AA#40) ∧
    decodeTableWord 32 0x41D59498 = some (.fieldCf0 0x41D59498#32) ∧
    decodeTableWord 16 0x150D = some (.fieldTr 0x150D#16 noon) := by decide

/-- The word of the row FRAME56.AVERAGE: the marker and, at bits 431:424, the code 3. -/
def tableAverage : Nat :=
  0x300000000000000000000000000000000000000000000000000000000000000000000000000000000000000000000000001340055aa

/-- It is read as that row. -/
theorem test_table_frame :
    decodeTableWord 448 tableAverage =
      some (.frame56Average (mark ++ List.replicate 48 0 ++ [3, 0, 0]) noon) := by decide

/-- A placed word is what the next step runs, from reset. -/
theorem test_placed_event : after (step (State.reset.withFetchWord 8 0x44)) (fun t => (t.phase, t.cnt, t.pos)) =
    some (.sync, 1, 1) := by decide

theorem test_placed_field : after (step (State.reset.withFetchWord 32 0x41D59498)) (fun t => t.port.field) =
    some (.cf 0 0x41D59498#32) := by decide

theorem test_placed_code :
    after (step (State.reset.withFetchWord 8 0x03)) (fun t => t.port.code) = some (.hold .average) ∧
    after (step (State.reset.withFetchWord 8 0x00)) (fun t => t.port.code) = some (.hold .current) := by decide

theorem test_placed_frame : after (step (State.reset.withFetchWord 448 tableAverage))
    (fun t => t.inputs) = some [] := by decide

/-! ### Host operations (HV1 to HV7) -/

/-- HV2: RESET in PAYLOAD; consumed bytes stay consumed. -/
theorem test_reset : after (exec .reset (inRead .payload (frameA0) 4)) (fun t => (t.phase, t.cnt, t.timer, t.res)) =
    some (.idle, 0, 0, .none) := by decide

/-- HV4: START after an error. -/
theorem test_start : after (exec .start { inRead .idle [1, 2, 3] 0 with res := .err .syncTimeout })
    (fun t => (t.phase, t.cnt, t.timer, t.res)) = some (.sync, 0, 7, .none) := by decide

/-- HV5, HV6. -/
theorem test_host_refusals : why (exec .start (inRead .sync [] 0)) = some .startWhileBusy ∧
    why (exec (.rxSync 0) (inRead .idle [] 0)) = some .notEnabled ∧
    why (exec .ttoPayload (inRead .idle [] 0)) = some .notEnabled := by decide

/-- HV7: the flags after reset. -/
theorem test_flags_after_reset : State.reset.busy = false ∧ State.reset.rxReady = false ∧ State.reset.done = false ∧
    State.reset.res.kindCode = 0 := by decide

/-! ### The detector (SV1 to SV6) -/

/-- SV1: four marker bytes are no match. -/
theorem test_rx_sync_fills : after (exec (.rxSync 0x34#8) (inRead .sync [0xAA#8, 0x55#8, 0x00#8] 5))
    (fun t => (t.phase, t.cnt, t.timer)) = some (.sync, 4, 5) := by decide

/-- SV4: the window slides and matches, the timer is loaded. -/
theorem test_rx_sync_slides : after (exec (.rxSync 0x01#8) (inRead .sync [0x02#8, 0xAA#8, 0x55#8, 0x00#8, 0x34#8] 5))
    (fun t => (t.phase, t.cnt, t.timer, t.buf)) =
    some (.payload, 5, 7, [(0, 0xAA#8), (1, 0x55#8), (2, 0x00#8), (3, 0x34#8), (4, 0x01#8)]) := by decide

/-! ### The payload (PV1 to PV5) -/

/-- PV1. -/
theorem test_rx_payload_stores : after (exec (.rxPayload 0x98#8 noon) (inRead .payload mark 3))
    (fun t => (t.phase, t.cnt, Memory.read t.buf 5, t.timer)) = some (.payload, 6, some 0x98#8, 3) := by decide

/-- PV4: the 56th byte of frame C. -/
theorem test_rx_payload_delivers : after (exec (.rxPayload 0x00#8 noon) (inRead .payload (frameC.take 55) 3))
    (fun t => (t.phase, t.cnt, t.res)) = some (.idle, 56, .err .invalidHoldType) := by decide

/-! ### Time-out, error, tick (TV1 to TV14) -/

theorem test_tto_answers : after (exec .ttoSync (inRead .sync [1] 4)) (fun t => t.cnt) ≠ none ∧
    why (exec .ttoSync (inRead .payload mark 4)) = some .phaseMismatch := by
  exact ⟨nofun, rfl⟩

theorem test_tto_payload_answers : why (exec .ttoPayload (inRead .payload mark 4)) = none := by decide

/-- TV7 to TV9, the policy given. -/
theorem test_tto_policies :
    (ttoState .endPhase .syncTimeout (inRead .sync [1, 2, 3] 4)).res = .err .syncTimeout ∧
    (ttoState .tolerate .syncTimeout (inRead .sync [1, 2, 3] 4)).phase = .sync ∧
    (ttoState .endPhase .payloadTimeout (inRead .payload mark 4)).cnt = 5 := by decide

/-- TV11. -/
theorem test_terr_sync : after (exec (.terrSync lost) (inRead .sync [1] 4)) (fun t => (t.phase, t.cnt, t.timer, t.res)) =
    some (.idle, 1, 4, .err (.io lost)) := by decide

/-- TV12. -/
theorem test_terr_payload : after (exec (.terrPayload lost) (inRead .payload (frameA0) 4))
    (fun t => (t.phase, t.cnt, readResIo t)) = some (.idle, 25, lost) := by decide

/-- TV1, TV2. -/
theorem test_tick_sync : after (exec .tickSync (inRead .sync [1, 2, 3] 2)) (fun t => (t.phase, t.timer)) =
      some (.sync, 1) ∧
    after (exec .tickSync (inRead .sync [1, 2, 3] 0)) (fun t => (t.phase, t.cnt, t.timer, t.res)) =
      some (.idle, 3, 0, .err .syncTimeout) := by decide

/-- TV4. -/
theorem test_tick_payload : after (exec .tickPayload (inRead .payload (frameA0) 0))
    (fun t => (t.phase, t.cnt, t.res)) = some (.idle, 25, .err .payloadTimeout) := by decide

/-- TV6. -/
theorem test_tick_idle : after (exec .tickIdle { State.reset with res := .err .badSync }) (fun t => t.res) =
    some (.err .badSync) := by decide

/-! ### The decoder (DV1 to DV21) -/

/-- DV1, with the fields of V1. -/
theorem test_decode_frame_a : decodeFrame nan (frameA 0) noon =
    .ok { cur := ⟨0x41D59498#32, nan, nan, nan⟩, held := ⟨0x41D59498#32, 0x00000000#32, 0x41D5022D#32, 0x4285256C#32⟩,
          meter := 0x41D28000#32, hold := .current, captime := noon } := by decide

/-- DV2. -/
theorem test_decode_frame_b : decodeFrame nan frameB noon =
    .ok { cur := ⟨0x41C80000#32, 0x41BC0000#32, nan, 0xC2200000#32⟩,
          held := ⟨0x42C90000#32, 0x41BC0000#32, 0x41AA0000#32, nan⟩, meter := 0x41B00000#32, hold := .minimum,
          captime := noon } := by decide

/-- DV3, DV9, DV10. -/
theorem test_decode_bad_codes : decodeFrame nan frameC noon = .err .invalidHoldType ∧
    decodeFrame nan (frameA 0x04#8) noon = .err .invalidHoldType ∧
    decodeFrame nan (frameA 0x80#8) noon = .err .invalidHoldType := by decide

/-- DV16, DV17. -/
theorem test_decode_bad_sync : decodeFrame nan (0xAB#8 :: (frameA 9).tail) noon = .err .badSync ∧
    decodeFrame nan ((frameA 0).take 4 ++ [0x00#8] ++ (frameA 0).drop 5) noon = .err .badSync := by decide

/-- DV18 to DV21. -/
theorem test_decode_wrong_size : decodeFrame nan ((frameA 0).take 55) noon = .err .wrongSize ∧
    decodeFrame nan (frameA 0 ++ [0]) noon = .err .wrongSize ∧ decodeFrame nan [] noon = .err .wrongSize ∧
    decodeFrame nan (List.replicate 57 0) noon = .err .wrongSize := by decide

/-- MV1, MV2, MV4. -/
theorem test_mem_read : memRead (frameA 0) 45 4 = 0x41D28000 ∧ memRead (frameA 0) 54 2 = 0x150D ∧
    memRead (frameA 0) 53 1 = 0 ∧ leValue (frameA 0) / 256 ^ 54 = 0x150D := by decide

/-- The rows of the decoder port write the port's answer only. -/
theorem test_frame_rows :
    ∀ f ∈ [Instr.frame56, Instr.frame56Valid, .frame56Current, .frame56Maximum, .frame56Minimum, .frame56Average],
      after (exec (f (frameA 4) noon) (inRead .sync [1] 3)) (fun t => (t.port.out, t.phase, t.cnt)) =
        some (.err .invalidHoldType, .sync, 1) := by decide

/-- Each value field for its own channel. -/
theorem test_value_fields :
    after (exec (.fieldCf2 9) State.reset) (fun t => t.port.field) = some (.cf 2 9) ∧
    after (exec (.fieldHf3 9) State.reset) (fun t => t.port.field) = some (.hf 3 9) ∧
    after (exec (.fieldMt 9) State.reset) (fun t => t.port.field) = some (.meter 9) ∧
    after (exec (.fieldUnk 9) State.reset) (fun t => t.port.field) = some .discarded := by decide

theorem test_flag_fields :
    after (exec (.fieldCe1 9) State.reset) (fun t => t.port.field) = some (.ce 1 9) ∧
    after (exec (.fieldHe0 9) State.reset) (fun t => t.port.field) = some (.he 0 9) ∧
    after (exec (.fieldHc 3) State.reset) (fun t => t.port.field) = some (.hold .average) ∧
    after (exec (.fieldHc 4) State.reset) (fun t => t.port.field) = some .invalidHoldType := by decide

theorem test_sync_and_trailer_fields :
    after (exec (.fieldSync 0x01340055AA#40) State.reset) (fun t => t.port.field) = some .marker ∧
    after (exec (.fieldSync 0#40) State.reset) (fun t => t.port.field) = some .badSync ∧
    after (exec (.fieldTr 0x150D noon) State.reset) (fun t => t.port.field) = some (.captime noon) := by decide

theorem test_codes :
    after (exec .hcCurrent State.reset) (fun t => t.port.code) = some (.hold .current) ∧
    after (exec .hcMaximum State.reset) (fun t => t.port.code) = some (.hold .maximum) ∧
    after (exec .hcMinimum State.reset) (fun t => t.port.code) = some (.hold .minimum) ∧
    after (exec .hcAverage State.reset) (fun t => t.port.code) = some (.hold .average) ∧
    after (exec (.hcInvalid 0x10#8) State.reset) (fun t => t.port.code) = some .invalidHoldType := by decide

/-! ### The step -/

/-- RX takes the first byte of the stream. -/
theorem test_step_rx : after (step (withPort (inRead .sync [] 3) [0xAA#8, 0x55#8] [.event 0x04 noon lost]))
    (fun t => (t.cnt, Memory.read t.buf 0, t.stream, t.pos, t.inputs)) = some (1, some 0xAA#8, [0x55#8], 1, []) := by decide

/-- A host write in IDLE; a number of any size is refused while busy. -/
theorem test_step_limits : why (step (withPort (inRead .sync [] 3) [] [.writeSyncLimit 0])) = some .limitWriteWhileBusy := by
  decide

/-- What cannot be presented. -/
theorem test_step_refusals :
    why (step (withPort (inRead .sync [] 3) [] [.event 0x04 noon lost])) = some .noByte ∧
    why (step (withPort (inRead .sync [] 3) [] [.event 0x06 noon lost])) = some .notOneHot ∧
    why (step (withPort State.reset [] [.frame .valid [] noon])) = some .notInRow ∧
    why (step (withPort State.reset [] [.field 0 [1] noon])) = some .fieldLength ∧
    why (step (withPort State.reset [] [.field 6 mark noon])) = some .noFieldAtOffset ∧
    why (step (withPort State.reset [] [.frame .whole (frameA 0 ++ [0]) noon])) = none ∧
    why (step (withPort State.reset [] [.field 0 mark noon])) = none := by decide

/-! ### Witnesses: values that meet the hypotheses of each statement, clause by clause at the edges of its range -/

/-- PAYLOAD with 55 bytes of a frame whose hold-type byte is `hc`, one RX with the last byte pending. -/
def lastByte (hc : Byte) : State := withPort (inRead .payload ((frameA hc).take 55) 3) [0x15#8] [.event 0x04 noon lost]

/-- The invariant of a state with both limits and the timer 0, in PAYLOAD with 55 bytes. -/
theorem inv_lastByte (hc : Byte) :
    Inv { lastByte hc with timer := 0, syncLimit := 0, payloadLimit := 0 } where
  buf_wf := rfl
  cnt_le := by
    show 55 ≤ 56
    decide
  timer_lt := Nat.two_pow_pos _
  syncLimit_lt := Nat.two_pow_pos _
  payloadLimit_lt := Nat.two_pow_pos _
  sync_cnt := nofun
  sync_unmatched := nofun
  payload_cnt := fun _ => by
    show 5 ≤ 55 ∧ 55 < 56
    decide
  payload_marker := fun _ => rfl
  written := fun _ i hi => by
    have hl : ((frameA hc).take 55).length = 55 := rfl
    have hi : i < 55 := hi
    show Memory.read (Memory.writeList [] 0 ((frameA hc).take 55)) i ≠ none
    rw [Memory.read_writeList, if_pos (Nat.zero_le _), Nat.sub_zero, List.getElem?_eq_getElem (by omega)]
    exact nofun
  busy_res := fun _ => rfl
  reader_res := rfl
  port_out := nofun

theorem test_witness_StartBeginsARead : (inRead .idle mark 0).phase = .idle := by decide

theorem test_witness_StartWhileBusyIsRefused : (inRead .payload mark 0).phase ≠ .idle ∧ (inRead .sync [] 0).phase ≠ .idle := by
  decide

theorem test_witness_HostWriteChangesOneLimit :
    (withPort State.reset [] [.writeSyncLimit 0]).phase = .idle ∧ 0 < 2 ^ Config.timerW ∧
    2 ^ Config.timerW - 1 < 2 ^ Config.timerW ∧
    (withPort State.reset [] [.writeSyncLimit 0]).inputs = .writeSyncLimit 0 :: [] ∧
    (withPort State.reset [] [.writePayloadLimit (2 ^ Config.timerW - 1)]).inputs =
      .writePayloadLimit (2 ^ Config.timerW - 1) :: [] :=
  ⟨rfl, Nat.two_pow_pos _, Nat.sub_lt (Nat.two_pow_pos _) (by decide), rfl, rfl⟩

theorem test_witness_LimitWriteWhileBusyIsRefused :
    (inRead .sync [] 0).busy = true ∧ (inRead .payload mark 0).busy = true := by decide

theorem test_witness_ReadOutGivesTheResult :
    ({ State.reset with res := .err (.io lost) } : State).res = .err (.io lost) ∧
    ∃ r, ({ State.reset with res := decodeFrame nan frameB noon } : State).res = .ok r :=
  ⟨rfl, _, test_decode_frame_b⟩

theorem test_witness_PhaseAndResultCodes : holdOf 0 = some .current ∧ holdOf 3 = some .average := by decide

theorem test_witness_RxSyncSlidesTheWindow :
    (inRead .sync [] 0).phase = .sync ∧ (inRead .sync [] 0).cnt < 5 ∧ (inRead .sync (mark.take 4) 0).cnt = 4 ∧
    bufBytes (inRead .sync (mark.take 4) 0) 0 4 ++ [0x01#8] = mark ∧
    (inRead .sync [1, 2, 3, 4, 5] 0).phase = .sync ∧ (inRead .sync [1, 2, 3, 4, 5] 0).cnt = 5 := by decide

/-- The byte 01 ends the marker, the byte 02 does not; the bytes before hold none. -/
theorem test_witness_SyncEndsAtTheFirstMarker :
    (inRead .sync [] 7).phase = .sync ∧ (inRead .sync [] 7).cnt = 0 ∧ ¬ Config.marker <:+: 0xAA#8 :: mark.take 4 ∧
    Config.marker <:+ (0xAA#8 :: mark.take 4) ++ [0x01#8] ∧
    ¬ Config.marker <:+ (0xAA#8 :: mark.take 4) ++ [0x02#8] := by decide

theorem test_witness_PrefixCounterMatchesTheWindow :
    (inRead .sync [] 7).phase = .sync ∧ (inRead .sync [] 7).cnt = 0 ∧
    ¬ Config.marker <:+: [0xAA#8, 0x55#8, 0xAA#8, 0x55#8, 0x00#8, 0x34#8] ∧
    [0xAA#8, 0x55#8, 0xAA#8, 0x55#8, 0x00#8, 0x34#8].foldl prefixCounter 0 = 4 := by decide

/-- Program P2: three noise bytes that end in a part of the marker, then frame B, then one byte more. -/
theorem test_witness_FrameAfterNoiseIsRead :
    frameB.length = 56 ∧ frameB.take 5 = Config.marker ∧ (frameB.getD 53 0).toNat ≤ 3 ∧
    ¬ Config.marker <:+: [0x00#8, 0xAA#8, 0x55#8] ++ frameB.take 4 ∧
    (List.replicate 58 wires).length + 1 = [0x00#8, 0xAA#8, 0x55#8].length + 56 ∧
    (withPort (inRead .sync [] 7) ([0x00#8, 0xAA#8, 0x55#8] ++ frameB ++ [0xEE#8])
      (rxInputs (List.replicate 58 wires ++ [wires]) ++ [])).phase = .sync ∧
    (withPort (inRead .sync [] 7) ([0x00#8, 0xAA#8, 0x55#8] ++ frameB ++ [0xEE#8])
      (rxInputs (List.replicate 58 wires ++ [wires]) ++ [])).cnt = 0 := by decide

theorem test_witness_StartCarriesNothingOver :
    (inRead .idle [0x11#8, 0xAA#8, 0x55#8] 0).phase = .idle ∧ [0x00#8, 0x34#8, 0x01#8, 0xAA#8].length < 5 := by decide

theorem test_witness_RxPayloadStoresAndDelivers :
    (inRead .payload mark 0).phase = .payload ∧ (inRead .payload mark 0).cnt ≤ 55 ∧ (inRead .payload mark 0).cnt < 55 ∧
    (lastByte 0).phase = .payload ∧ (lastByte 0).cnt ≤ 55 ∧ (lastByte 0).cnt = 55 := by decide

theorem test_witness_PayloadIsNotScanned :
    (inRead .payload ((frameA 0).take 50) 3).phase = .payload ∧
    (inRead .payload ((frameA 0).take 50) 3).cnt + (mark.map fun b => (b, noon)).length ≤ 55 ∧
    (inRead .payload ((frameA 0).take 50) 3).cnt + (mark.map fun b => (b, noon)).length = 55 := by decide

theorem test_witness_ReaderReportsOnlyBadHoldTypes :
    (∃ s, Inv s ∧ s.phase = .payload ∧ s.cnt = 55 ∧ 3 < (bufByte s 53).toNat) ∧
    ∃ s, Inv s ∧ s.phase = .payload ∧ s.cnt = 55 ∧ (bufByte s 53).toNat ≤ 3 :=
  ⟨⟨_, inv_lastByte 4, rfl, rfl, by decide⟩, ⟨_, inv_lastByte 3, rfl, rfl, by decide⟩⟩

theorem test_witness_TransportTimeoutInSync : (inRead .sync [1] 4).phase = .sync := by decide

theorem test_witness_TransportTimeoutInPayload : (inRead .payload mark 4).phase = .payload := by decide

theorem test_witness_TransportErrorIsDelivered :
    (inRead .sync [1] 4).phase = .sync ∧ (inRead .payload mark 4).phase = .payload := by decide

theorem test_witness_TickInSyncCountsOrExpires :
    (inRead .sync [1] 1).phase = .sync ∧ (inRead .sync [1] 1).timer ≠ 0 ∧ (inRead .sync [1] 0).phase = .sync ∧
    (inRead .sync [1] 0).timer = 0 := by decide

theorem test_witness_TickInPayloadCountsOrExpires :
    (inRead .payload mark 1).phase = .payload ∧ (inRead .payload mark 1).timer ≠ 0 ∧
    (inRead .payload mark 0).phase = .payload ∧ (inRead .payload mark 0).timer = 0 := by decide

theorem test_witness_TickInIdleChangesNothing : State.reset.phase = .idle := by decide

theorem test_witness_TransportEventsNotEnabledInIdle : (inRead .idle mark 3).phase = .idle := by decide

theorem test_witness_EventsWithoutARowAreRefused :
    (∀ k ∈ [EventKind.rx, .tto, .terr], (withPort State.reset [] [.event (eventCode k) noon lost]).phase = .idle ∧
      (k = .rx ∨ k = .tto ∨ k = .terr) ∧
      (withPort State.reset [] [.event (eventCode k) noon lost]).inputs = .event (eventCode k) noon lost :: []) ∧
    (withPort (inRead .payload mark 0) [] [.event (eventCode .start) noon lost]).phase ≠ .idle ∧
    (withPort (inRead .payload mark 0) [] [.event (eventCode .start) noon lost]).inputs =
      .event (eventCode .start) noon lost :: [] ∧
    (∀ k ∈ [EventKind.reset, .start, .rx, .tto, .terr, .tick], (0x03 : BitVec 6) ≠ eventCode k) ∧
    (withPort State.reset [] [.event 0x03 noon lost]).inputs = .event 0x03 noon lost :: [] ∧
    (withPort (inRead .sync [] 3) [] [.event (eventCode .rx) noon lost]).stream = [] ∧
    (withPort (inRead .sync [] 0) [] [.writeSyncLimit 3]).phase ≠ .idle ∧
    (withPort (inRead .sync [] 0) [] [.writeSyncLimit 3]).inputs = .writeSyncLimit 3 :: [] ∧
    (withPort (inRead .payload mark 0) [] [.writePayloadLimit 3]).inputs = .writePayloadLimit 3 :: [] := by decide

theorem test_witness_DeadlineExpiresOnTickAfterTheLast :
    (inRead .sync [] 0).phase = .sync ∧ 0 ≤ (inRead .sync [] 0).timer ∧ (inRead .payload mark 2).phase = .payload ∧
    2 ≤ (inRead .payload mark 2).timer := by decide

/-- One operation for each way the timer goes, and what meets the premises of the two loads. -/
theorem test_witness_TimerIsLoadedAtTwoPlaces :
    (∃ t, exec .reset (inRead .sync [] 3) = .next t) ∧ (∃ t, exec .start (inRead .idle [] 3) = .next t) ∧
    (∃ t, exec (.rxSync 1) (inRead .sync (mark.take 4) 3) = .next t ∧ (inRead .sync (mark.take 4) 3).phase = .sync ∧
      t.phase = .payload) ∧
    (∃ t, exec .tickSync (inRead .sync [] 3) = .next t ∧ Instr.tickSync ≠ .start ∧
      ¬ ((inRead .sync [] 3).phase = .sync ∧ t.phase = .payload)) ∧
    ∃ t, exec .hcCurrent (inRead .sync [] 3) = .next t :=
  ⟨⟨_, rfl⟩, ⟨_, rfl⟩, ⟨_, rfl, rfl, rfl⟩, ⟨_, rfl, nofun, nofun⟩, ⟨_, rfl⟩⟩

theorem test_witness_PhaseMovesByTheTable :
    (∃ t, exec .start (inRead .idle [] 3) = .next t) ∧ (∃ t, exec (.rxSync 1) (inRead .sync (mark.take 4) 3) = .next t) ∧
    ∃ t, exec .tickPayload (inRead .payload mark 0) = .next t :=
  ⟨⟨_, rfl⟩, ⟨_, rfl⟩, ⟨_, rfl⟩⟩

theorem test_witness_ResultChangesOnlyAtTheEndOfARead :
    (∃ t, exec .start (inRead .idle [] 3) = .next t) ∧ ∃ t, exec (.terrSync lost) (inRead .sync [] 3) = .next t :=
  ⟨⟨_, rfl⟩, ⟨_, rfl⟩⟩

theorem test_witness_DeliveryWritesResultAndPhase : Res.err .syncTimeout ≠ .none := by decide

theorem test_witness_OnlyRxWritesTheBuffer :
    (∃ t, exec .start (inRead .idle mark 3) = .next t) ∧ Instr.start ≠ .reset ∧ (∀ b, Instr.start ≠ .rxSync b) ∧
    ∀ b now, Instr.start ≠ .rxPayload b now :=
  ⟨⟨_, rfl⟩, nofun, fun _ => nofun, fun _ _ => nofun⟩

theorem test_witness_DecoderPortAndEventsAreApart :
    (∃ t, exec (.fieldMt 5) (inRead .sync [] 3) = .next t) ∧ isPortOp (.fieldMt 5) = true ∧
    (∃ t, exec .start (inRead .idle [] 3) = .next t) ∧ isPortOp .start = false :=
  ⟨⟨_, rfl⟩, rfl, ⟨_, rfl⟩, rfl⟩

theorem test_witness_TicksOfAnAttemptAreBounded :
    (∃ t, exec .start (inRead .idle [] 3) = .next t) ∧ (∃ t, exec .tickSync (inRead .sync [] 3) = .next t) ∧
    (inRead .sync [] 3).phase ≠ .idle ∧ isBusyTick .tickSync = true :=
  ⟨⟨_, rfl⟩, ⟨_, rfl⟩, nofun, rfl⟩

theorem test_witness_DecodeChecksTheMarker : frameC.length = 56 ∧ (0xAB#8 :: frameC.tail).length = 56 ∧
    (0xAB#8 :: frameC.tail).take 5 ≠ mark := by decide

theorem test_witness_DecodeMapsTheHoldType :
    (frameA 4).length = 56 ∧ (frameA 4).take 5 = Config.marker ∧ 3 < ((frameA 4).getD 53 0).toNat ∧
    ((frameA 3).getD 53 0).toNat = (holdCode .average).toNat ∧
    ((frameA 0).getD 53 0).toNat = (holdCode .current).toNat := by decide

theorem test_witness_DecodeReadsEveryField :
    frameB.length = 56 ∧ frameB.take 5 = Config.marker ∧ (frameB.getD 53 0).toNat ≤ 3 ∧
    frameB.getD 23 0 ≠ 0 ∧ frameB.getD 22 0 = 0 := by decide

theorem test_witness_UnknownAndTrailerChangeNothing :
    (frameA 0).length = 56 ∧ frameAOther.length = 56 ∧ frameA 0 ≠ frameAOther ∧
    ∀ k, k < 49 ∨ k = 53 → (frameA 0).getD k 0 = frameAOther.getD k 0 := by
  refine ⟨by decide, by decide, by decide, fun k hk => ?_⟩
  have h : ∀ k, k < 54 → (k < 49 ∨ k = 53) → (frameA 0).getD k 0 = frameAOther.getD k 0 := by decide
  exact h k (by omega) hk

/-- Channel 1 is flagged in frame A; held channel 0 is flagged in the other pair. -/
theorem test_witness_FlaggedValueIsDiscarded :
    ((frameA 0).length = 56 ∧ frameAFlagged.length = 56 ∧ frameA 0 ≠ frameAFlagged ∧ (frameA 0).getD 22 0 ≠ 0 ∧
      ∀ k, ¬ (9 ≤ k ∧ k < 13) → (frameA 0).getD k 0 = frameAFlagged.getD k 0) ∧
    ((frameHeld 0).length = 56 ∧ (frameHeld 1).length = 56 ∧ (frameHeld 0).getD 41 0 ≠ 0 ∧
      ∀ k, ¬ (25 ≤ k ∧ k < 29) → (frameHeld 0).getD k 0 = (frameHeld 1).getD k 0) := by
  have h1 : ∀ k, k < 56 → ¬ (9 ≤ k ∧ k < 13) → (frameA 0).getD k 0 = frameAFlagged.getD k 0 := by decide
  have h2 : ∀ k, k < 56 → ¬ (25 ≤ k ∧ k < 29) → (frameHeld 0).getD k 0 = (frameHeld 1).getD k 0 := by decide
  have out : ∀ (l : List Byte) k, l.length = 56 → ¬ k < 56 → l.getD k 0 = 0 := fun l k hl hk => by
    rw [List.getD_eq_default _ _ (by omega)]
  refine ⟨⟨by decide, by decide, by decide, by decide, fun k hk => ?_⟩, ⟨by decide, by decide, by decide, fun k hk => ?_⟩⟩
  · by_cases hb : k < 56
    · exact h1 k hb hk
    · rw [out _ k (by decide) hb, out _ k (by decide) hb]
  · by_cases hb : k < 56
    · exact h2 k hb hk
    · rw [out _ k (by decide) hb, out _ k (by decide) hb]

theorem test_witness_FrameRowsAnswerDecode :
    (Instr.frame56Current (frameA 0) noon).wellFormed = true ∧ (Instr.frame56Maximum (frameA 1) noon).wellFormed = true ∧
    (Instr.frame56Minimum (frameA 2) noon).wellFormed = true ∧ (Instr.frame56Average (frameA 3) noon).wellFormed = true := by
  decide

theorem test_witness_SyncHoldAndTrailerFields :
    (0 : Byte).toNat = (holdCode .current).toNat ∧ (3 : Byte).toNat = (holdCode .average).toNat ∧ 3 < (4 : Byte).toNat := by
  decide

/-- A frame that is read whole, one that ends at the hold type, one that ends at the marker. -/
theorem test_witness_FieldByFieldIsDecode :
    ∀ buf ∈ [frameA 0, frameC, List.replicate 56 0],
      buf.length = 56 ∧
      (withPort State.reset [] (fieldInputs buf noon ++ [])).inputs = fieldInputs buf noon ++ [] := by decide

theorem test_witness_HoldCodesMap : 3 < (4 : Byte).toNat ∧ 3 < (255 : Byte).toNat := by decide

theorem test_witness_MemReadIsLittleEndian :
    55 + 1 ≤ (frameA 0).length ∧ 54 + 2 ≤ (frameA 0).length ∧ 52 + 4 ≤ (frameA 0).length := by decide

theorem test_witness_FieldsAreSlicesOfTheFrame : (frameA 0).length = 56 ∧ 54 + 2 ≤ 56 := by decide

theorem test_witness_SentinelIsSomeNan : nan.extractLsb' 23 8 = 0xFF#8 ∧ nan.extractLsb' 0 23 ≠ 0 := by decide

theorem test_witness_DecodeOfEncode :
    (Instr.frame56Average (frameA 3) noon).wellFormed = true ∧ (Instr.hcInvalid 255).wellFormed = true ∧
    (Instr.terrPayload lost).wellFormed = true := by decide

theorem test_witness_EncodeOfDecode :
    decode .event wires [0xC1#8] = .ok .reset [] ∧ decode .event wires [0x44#8, 1, 2] = .ok (.rxSync 1) [2] ∧
    decode .code wires [9] = .ok (.hcInvalid 9) [] := by decide

theorem test_witness_StepRunsTheDecodedOperation :
    (lastByte 0).inputs = .event 0x04 noon lost :: [] ∧
    (∃ s', fetchInput (.event 0x04 noon lost) { lastByte 0 with inputs := [] } =
      .word .event wires [0x84#8, 0x15#8] s') ∧
    decode .event wires [0x84#8, 0x15#8] = .ok (.rxPayload 0x15#8 noon) [] ∧ State.reset.inputs = [] :=
  ⟨rfl, ⟨_, rfl⟩, by decide, rfl⟩

theorem test_witness_EventsAreTheirRows :
    (∀ k ∈ [EventKind.reset, .start, .rx, .tto, .terr, .tick], ∀ p ∈ [Phase.idle, .sync, .payload],
      (withPort (inRead p mark 3) [7] [.event (eventCode k) noon lost]).inputs = .event (eventCode k) noon lost :: [] ∧
      (withPort (inRead p mark 3) [7] [.event (eventCode k) noon lost]).phase = p) ∧
    (withPort (inRead .sync mark 3) [7] [.event (eventCode .rx) noon lost]).stream = 7 :: [] := by decide

theorem test_witness_OnlyRxConsumesAByte :
    (∃ t, step (withPort (inRead .sync [] 3) [7] [.event (eventCode .rx) noon lost]) = .next t) ∧
    ∃ t, step (withPort (inRead .sync [] 3) [7] [.event (eventCode .tick) noon lost]) = .next t :=
  ⟨⟨_, rfl⟩, ⟨_, rfl⟩⟩

/-- A frame, no byte at all, and a buffer longer than the port's largest. -/
theorem test_witness_DecoderPortTakesAnyLength :
    (withPort State.reset [] [.frame .whole (frameA 0) noon]).inputs = .frame .whole (frameA 0) noon :: [] ∧
    ([] : List Byte).length ≠ 56 ∧ (List.replicate (Config.decMaxLen + 1) (0 : Byte)).length ≠ 56 :=
  ⟨rfl, by decide, by rw [List.length_replicate]; exact Nat.ne_of_gt (Nat.lt_succ_of_le (Nat.le_add_left _ _))⟩

theorem test_witness_StepKeepsTheInvariant : ∃ s t, Inv s ∧ step s = .next t := ⟨_, _, inv_lastByte 0, rfl⟩

theorem test_witness_NoStepFaultsUnderTheInvariant : ∃ s, Inv s ∧ s.inputs ≠ [] := ⟨_, inv_lastByte 0, nofun⟩

theorem test_witness_CanonicalBuffersAreEqual :
    Memory.wf [(0, 7), (55, 9)] = true ∧ Memory.wf [(56, 7)] = false ∧ Memory.wf [(3, 7), (3, 7)] = false ∧
    ∀ a, Memory.read [(0, 7), (55, 9)] a = Memory.read (Memory.write [(55, 9)] 0 7) a :=
  ⟨by decide, by decide, by decide, fun _ => rfl⟩

end Sys2Proof.Tests
end

/-! The parameters of spec/00_scope.md R6: the NaN patterns, and the width of the limits. -/

namespace Sys2Proof

/-! ### NaN patterns (spec/30_encoding.md R49) -/

/-- The sign, exponent and fraction of a pattern are the whole pattern. -/
theorem Pattern.append_slices (p : Pattern) :
    p.extractLsb' 31 1 ++ p.extractLsb' 23 8 ++ p.extractLsb' 0 23 = p := by
  rw [BitVec.extractLsb'_append_extractLsb'_eq_extractLsb' (by rfl)]
  exact BitVec.extractLsb'_append_extractLsb'

theorem Config.nanOf_exponent (sign : BitVec 1) (fraction : BitVec 23) :
    (Config.nanOf sign fraction).extractLsb' 23 8 = 0xFF#8 := by
  rw [Config.nanOf, BitVec.extractLsb'_append_eq_of_le (by decide)]
  exact BitVec.extractLsb'_append_eq_right

theorem Config.nanOf_fraction (sign : BitVec 1) (fraction : BitVec 23) :
    (Config.nanOf sign fraction).extractLsb' 0 23 = if fraction = 0 then 0x400000#23 else fraction :=
  BitVec.extractLsb'_append_eq_right

/-- Fraction 0 is replaced by the quiet bit, and every other is kept. -/
theorem Config.nanOf_fraction_ne_zero (sign : BitVec 1) (fraction : BitVec 23) :
    (Config.nanOf sign fraction).extractLsb' 0 23 ≠ 0 := by
  rw [Config.nanOf_fraction]
  split
  · decide
  · assumption

/-- A NaN pattern is the one made of its own sign and fraction. -/
theorem Config.nanOf_slices {p : Pattern} (hexp : p.extractLsb' 23 8 = 0xFF#8) (hfrac : p.extractLsb' 0 23 ≠ 0) :
    Config.nanOf (p.extractLsb' 31 1) (p.extractLsb' 0 23) = p := by
  rw [Config.nanOf, if_neg hfrac, ← hexp, Pattern.append_slices]

/-! ### The width of the limits -/

/-- TIMER_W is at least the width of the reset limit. -/
theorem Config.resetLimit_lt_two_pow_timerW : Config.resetLimit < 2 ^ Config.timerW :=
  calc Config.resetLimit < 2 ^ (Nat.log2 Config.resetLimit + 1) := Nat.lt_log2_self
    _ ≤ 2 ^ Config.timerW := Nat.pow_le_pow_right (by decide) (Nat.le_add_right _ _)

/-! ### The statements -/

/-- Settles O47: the form of the sentinel is a NaN for every sign and fraction, and a NaN pattern is the form of its own. -/
theorem sentinelIsSomeNan : Obligations.SentinelIsSomeNan :=
  ⟨⟨Config.nanOf_exponent _ _, Config.nanOf_fraction_ne_zero _ _⟩,
    fun _ hexp hfrac => ⟨_, _, Config.nanOf_slices hexp hfrac⟩⟩

/-- Settles O48: both limits are the reset limit, which TIMER_W holds; TICK_HZ and DEC_MAXLEN have their bounds by form. -/
theorem parametersMeetTheirConstraints : Obligations.ParametersMeetTheirConstraints :=
  ⟨Nat.succ_pos _, Config.resetLimit_lt_two_pow_timerW, Config.resetLimit_lt_two_pow_timerW, Nat.le_add_left _ _⟩

end Sys2Proof

/-! The invariant of spec/10_state.md R27: the reset state has it and every step keeps it; what writes RES, BUF and the
limits; the canonical form of the buffer. -/

namespace Sys2Proof.Machine

/-! ### The canonical form of the buffer -/

theorem Memory.risingFrom_cons {lo a : Nat} {v : Byte} {m : Memory} :
    Memory.risingFrom lo ((a, v) :: m) = true ↔
      lo ≤ a ∧ a < Config.frameLen ∧ Memory.risingFrom (a + 1) m = true := by
  simp only [Memory.risingFrom, Bool.and_eq_true, decide_eq_true_eq, and_assoc]

@[simp] theorem Memory.read_cons_self (a : Nat) (v : Byte) (m : Memory) : Memory.read ((a, v) :: m) a = some v := by
  simp [Memory.read]

/-- The first offset of a buffer in canonical form is the least offset that reads as a byte. -/
theorem Memory.head_le_of_read {lo a x : Nat} {v w : Byte} {m : Memory}
    (hm : Memory.risingFrom lo ((a, v) :: m) = true) (hx : Memory.read ((a, v) :: m) x = some w) : a ≤ x := by
  by_contra hlt
  obtain ⟨-, ha, hm⟩ := Memory.risingFrom_cons.mp hm
  have hfrom : Memory.risingFrom a ((a, v) :: m) = true := Memory.risingFrom_cons.mpr ⟨le_rfl, ha, hm⟩
  rw [Memory.read_lt_lo hfrom (Nat.lt_of_not_le hlt)] at hx
  cases hx

/-- Buffers in canonical form with the same first offset have tails that read alike where the buffers do. -/
theorem Memory.read_tail_congr {a : Nat} {v w : Byte} {m n : Memory} (hm : Memory.risingFrom (a + 1) m = true)
    (hn : Memory.risingFrom (a + 1) n = true)
    (h : ∀ x, Memory.read ((a, v) :: m) x = Memory.read ((a, w) :: n) x) (x : Nat) :
    Memory.read m x = Memory.read n x := by
  by_cases hx : x = a
  · rw [hx, Memory.read_lt_lo hm (Nat.lt_succ_self a), Memory.read_lt_lo hn (Nat.lt_succ_self a)]
  · simpa [Memory.read, hx] using h x

theorem Memory.eq_of_read_eq {lo : Nat} {m n : Memory} (hm : Memory.risingFrom lo m = true)
    (hn : Memory.risingFrom lo n = true) (h : ∀ a, Memory.read m a = Memory.read n a) : m = n := by
  induction m generalizing lo n with
  | nil =>
    cases n with
    | nil => rfl
    | cons c n => exact nomatch (h c.1).trans (Memory.read_cons_self c.1 c.2 n)
  | cons c m ih =>
    obtain ⟨a, v⟩ := c
    cases n with
    | nil => simpa using h a
    | cons d n =>
      obtain ⟨b, w⟩ := d
      have hab : a ≤ b := Memory.head_le_of_read hm ((h b).trans (Memory.read_cons_self b w n))
      have hba : b ≤ a := Memory.head_le_of_read hn ((h a).symm.trans (Memory.read_cons_self a v m))
      obtain rfl : a = b := Nat.le_antisymm hab hba
      obtain ⟨-, -, hm⟩ := Memory.risingFrom_cons.mp hm
      obtain ⟨-, -, hn⟩ := Memory.risingFrom_cons.mp hn
      have hvw : v = w := by simpa using h a
      rw [hvw, ih hm hn (Memory.read_tail_congr hm hn h)]

/-! ### What Decode can answer -/

/-- Decode never parses a frame incompletely (spec/44_decoder.md R105). -/
theorem decodeFrame_ne_incompleteParse (nan : Pattern) (buf : List Byte) (now : Time) :
    decodeFrame nan buf now ≠ .err .incompleteParse := by
  by_cases hl : buf.length = 56
  · by_cases hm : buf.take 5 = Config.marker
    · rw [decodeFrame_body hl hm]; split <;> simp
    · rw [decodeFrame_sync hl hm]; simp
  · rw [decodeFrame_size hl]; simp

/-- Of a frame that begins with the marker Decode answers what the reader may deliver (spec/10_state.md R27 item 6). -/
theorem portOnly_decodeFrame {nan : Pattern} {buf : List Byte} {now : Time} (hl : buf.length = 56)
    (hm : buf.take 5 = Config.marker) : portOnly (decodeFrame nan buf now) = false := by
  rw [decodeFrame_body hl hm]
  split <;> rfl

theorem decodeFrame_ne_none (nan : Pattern) (buf : List Byte) (now : Time) : decodeFrame nan buf now ≠ .none := by
  intro h
  have hk := decodeFrame_done nan buf now
  rw [h] at hk
  exact hk rfl

/-- The decoder port's last answer of Decode after one of its operations: as before, or Decode's answer. -/
theorem exec_portOp_out {i : Instr} (hi : isPortOp i = true) (s : State) :
    ∃ p, exec i s = .next (s.setPort p) ∧
      (p.out = s.port.out ∨ ∃ buf now, p.out = decodeFrame Config.nanSentinel buf now) := by
  cases i
  case reset | start | rxSync | rxPayload | ttoSync | ttoPayload | terrSync | terrPayload | tickSync | tickPayload
      | tickIdle => simp [isPortOp, portOf] at hi
  case frame56 buf now | frame56Valid buf now | frame56Current buf now | frame56Maximum buf now
      | frame56Minimum buf now | frame56Average buf now => exact ⟨_, rfl, .inr ⟨buf, now, rfl⟩⟩
  case hcCurrent | hcMaximum | hcMinimum | hcAverage | hcInvalid =>
    simp only [exec, execHcCurrent, execHcMaximum, execHcMinimum, execHcAverage, execHcInvalid, mapHold]
    split <;> exact ⟨_, rfl, .inl rfl⟩
  all_goals exact ⟨_, rfl, .inl rfl⟩

/-! ### What a received byte does to the state -/

/-- A byte in SYNC makes the window the marker and begins the payload, or is stored. -/
theorem rxSyncState_cases (s : State) (b : Byte) :
    (syncWindow s b = Config.marker ∧
      rxSyncState s b = ((storeWindow s b).setPhase .payload).setTimer s.payloadLimit) ∨
    (syncWindow s b ≠ Config.marker ∧ rxSyncState s b = storeWindow s b) := by
  unfold rxSyncState
  split
  · exact .inl ⟨‹_›, rfl⟩
  · exact .inr ⟨‹_›, rfl⟩

/-- A byte in PAYLOAD is the frame's last and ends the read with Decode's answer, or is stored. -/
theorem rxPayloadState_cases (s : State) (b : Byte) (now : Time) :
    (s.cnt + 1 = Config.frameLen ∧ rxPayloadState s b now =
      deliver (decodeFrame Config.nanSentinel (bufBytes (storePayload s b) 0 Config.frameLen) now) (storePayload s b)) ∨
    (s.cnt + 1 ≠ Config.frameLen ∧ rxPayloadState s b now = storePayload s b) := by
  unfold rxPayloadState
  split
  · exact .inl ⟨‹_›, rfl⟩
  · exact .inr ⟨‹_›, rfl⟩

@[simp] theorem storePayload_phase (s : State) (b : Byte) : (storePayload s b).phase = s.phase := rfl

theorem storeWindow_buf_wf {s : State} (b : Byte) (hs : Memory.wf s.buf = true) :
    Memory.wf (storeWindow s b).buf = true := by
  have hlen := syncWindow_length s b
  unfold storeWindow
  split
  · next hc => exact Memory.wf_write hs (hc.trans (by decide))
  · next hc =>
    rw [if_neg hc] at hlen
    exact Memory.wf_writeList hs (by rw [hlen]; decide)

/-- Every offset below CNT stays written when the window is stored. -/
theorem storeWindow_written {s : State} {b : Byte} (hs : ∀ i, i < s.cnt → Memory.read s.buf i ≠ none) {i : Nat}
    (hi : i < (storeWindow s b).cnt) : Memory.read (storeWindow s b).buf i ≠ none := by
  rw [storeWindow_read]
  rw [storeWindow_cnt] at hi
  by_cases hc : s.cnt < 5
  · rw [if_pos hc] at hi ⊢
    by_cases h : i = s.cnt
    · simp [h]
    · rw [if_neg h]
      exact hs i (by omega)
  · rw [if_neg hc] at hi ⊢
    by_cases h : i < 5
    · have hlen : (syncWindow s b).length = 5 := (syncWindow_length s b).trans (if_neg hc)
      simp [h, hlen]
    · rw [if_neg h]
      exact hs i hi

/-- Five bytes held after the window is stored are the window, in any state that shares BUF. -/
theorem bufBytes_full_window {s t : State} {b : Byte} (hc : s.cnt ≤ 5) (h5 : (storeWindow s b).cnt = 5)
    (hb : t.buf = (storeWindow s b).buf) (hd : t.draws = s.draws) : bufBytes t 0 5 = syncWindow s b :=
  h5 ▸ storeWindow_bytes s b hc t hb hd

/-- Where the window becomes the marker, five bytes are held. -/
theorem storeWindow_cnt_of_marker {s : State} {b : Byte} (hc : s.cnt ≤ 5) (hm : syncWindow s b = Config.marker) :
    (storeWindow s b).cnt = 5 := by
  rw [← bufBytes_length (storeWindow s b) 0 (storeWindow s b).cnt,
    storeWindow_bytes s b hc (storeWindow s b) rfl (by rw [storeWindow_frame]), hm]
  rfl

/-! ### The invariant -/

/-- In IDLE the invariant asks only for the form of the buffer, the ranges of the registers, and the results. -/
theorem Inv.of_idle {s : State} (hp : s.phase = .idle) (buf_wf : Memory.wf s.buf = true)
    (cnt_le : s.cnt ≤ Config.frameLen) (timer_lt : s.timer < 2 ^ Config.timerW)
    (syncLimit_lt : s.syncLimit < 2 ^ Config.timerW) (payloadLimit_lt : s.payloadLimit < 2 ^ Config.timerW)
    (reader_res : portOnly s.res = false) (port_out : s.port.out ≠ .err .incompleteParse) : Inv s where
  buf_wf := buf_wf
  cnt_le := cnt_le
  timer_lt := timer_lt
  syncLimit_lt := syncLimit_lt
  payloadLimit_lt := payloadLimit_lt
  sync_cnt := by simp [hp]
  sync_unmatched := by simp [hp]
  payload_cnt := by simp [hp]
  payload_marker := by simp [hp]
  written := by simp [hp]
  busy_res := by simp [hp]
  reader_res := reader_res
  port_out := port_out

section
variable {s : State} (h : Inv s)
include h

/-! The pending activity, the stream and its position are not in the invariant. -/

theorem Inv.setInputs (v : List Input) : Inv (s.setInputs v) := { h with }

theorem Inv.setStream (v : List Byte) : Inv (s.setStream v) := { h with }

theorem Inv.setPos (v : Nat) : Inv (s.setPos v) := { h with }

theorem Inv.setTimer {v : Nat} (hv : v < 2 ^ Config.timerW) : Inv (s.setTimer v) := { h with timer_lt := hv }

theorem Inv.setPort {p : DecPort} (hp : p.out ≠ .err .incompleteParse) : Inv (s.setPort p) := { h with port_out := hp }

theorem Inv.setLimit (r : LimitReg) {v : Nat} (hv : v < 2 ^ Config.timerW) : Inv (setLimit r v s) := by
  cases r
  · exact { h with syncLimit_lt := hv }
  · exact { h with payloadLimit_lt := hv }

theorem Inv.deliver {r : Res} (hr : portOnly r = false) : Inv (deliver r s) :=
  .of_idle rfl h.buf_wf h.cnt_le h.timer_lt h.syncLimit_lt h.payloadLimit_lt hr h.port_out

theorem Inv.resetState : Inv (resetState s) :=
  .of_idle rfl rfl (Nat.zero_le _) (Nat.two_pow_pos _) Config.resetLimit_lt_two_pow_timerW
    Config.resetLimit_lt_two_pow_timerW rfl h.port_out

theorem Inv.startState : Inv (startState s) where
  buf_wf := h.buf_wf
  cnt_le := Nat.zero_le _
  timer_lt := h.syncLimit_lt
  syncLimit_lt := h.syncLimit_lt
  payloadLimit_lt := h.payloadLimit_lt
  sync_cnt _ := Nat.zero_le _
  sync_unmatched _ := nofun
  payload_cnt := nofun
  payload_marker := nofun
  written _ _ := nofun
  busy_res _ := rfl
  reader_res := rfl
  port_out := h.port_out

theorem Inv.tickState {k : ErrorKind} (hk : portOnly (.err k) = false) : Inv (tickState k s) := by
  rcases tickState_cases k s with ⟨-, e⟩ | ⟨-, e⟩ <;> rw [e]
  · exact h.setTimer ((Nat.sub_le _ _).trans_lt h.timer_lt)
  · exact h.deliver hk

/-- A byte in SYNC: the window it leaves is the marker where the phase becomes PAYLOAD, and is not where it stays SYNC. -/
theorem Inv.rxSyncState (hp : s.phase = .sync) (b : Byte) : Inv (rxSyncState s b) := by
  have hbusy : s.phase ≠ .idle := by simp [hp]
  have hc : s.cnt ≤ 5 := h.sync_cnt hp
  have hwf := storeWindow_buf_wf b h.buf_wf
  have hwritten := fun i (hi : i < (storeWindow s b).cnt) => storeWindow_written (h.written hbusy) hi
  have hframe := storeWindow_frame s b
  have hcnt : (storeWindow s b).cnt ≤ 5 := by rw [storeWindow_cnt]; split <;> omega
  rcases rxSyncState_cases s b with ⟨hm, e⟩ | ⟨hm, e⟩ <;> rw [e]
  · have hcnt5 := storeWindow_cnt_of_marker hc hm
    rw [hframe]
    exact { h with
      buf_wf := hwf
      cnt_le := hcnt.trans (by decide)
      timer_lt := h.payloadLimit_lt
      sync_cnt := nofun
      sync_unmatched := nofun
      payload_cnt := fun _ => ⟨hcnt5.ge, hcnt5.trans_lt (by decide)⟩
      payload_marker := fun _ => Eq.trans (bufBytes_full_window hc hcnt5 rfl rfl) hm
      written := fun _ => hwritten
      busy_res := fun _ => h.busy_res hbusy }
  · rw [hframe]
    exact { h with
      buf_wf := hwf
      cnt_le := hcnt.trans (by decide)
      sync_cnt := fun _ => hcnt
      sync_unmatched := fun _ hcnt5 => ne_of_eq_of_ne (bufBytes_full_window hc hcnt5 rfl rfl) hm
      payload_cnt := by simp [hp]
      payload_marker := by simp [hp]
      written := fun _ => hwritten }

/-- A byte in PAYLOAD: stored behind the marker, or the last of a frame that begins with it. -/
theorem Inv.rxPayloadState (hp : s.phase = .payload) (b : Byte) (now : Time) : Inv (rxPayloadState s b now) := by
  have hbusy : s.phase ≠ .idle := by simp [hp]
  obtain ⟨h5, h56⟩ := h.payload_cnt hp
  have hmark : bufBytes (storePayload s b) 0 5 = Config.marker :=
    (storePayload_bytes s b 5 h5).trans (h.payload_marker hp)
  have hwf : Memory.wf (storePayload s b).buf = true := Memory.wf_write h.buf_wf h56
  rcases rxPayloadState_cases s b now with ⟨hlast, e⟩ | ⟨hlast, e⟩ <;> rw [e]
  · have htake : (bufBytes (storePayload s b) 0 Config.frameLen).take 5 = Config.marker := hmark
    exact .of_idle rfl hwf h56 h.timer_lt h.syncLimit_lt h.payloadLimit_lt
      (portOnly_decodeFrame (bufBytes_length _ _ _) htake) h.port_out
  · exact { h with
      buf_wf := hwf
      cnt_le := h56
      sync_cnt := by simp [hp]
      sync_unmatched := by simp [hp]
      payload_cnt := fun _ => ⟨h5.trans (Nat.le_succ _), Nat.lt_of_le_of_ne h56 hlast⟩
      payload_marker := fun _ => hmark
      written := fun _ i (hi : i < s.cnt + 1) => by
        rw [storePayload_read]
        by_cases hic : i = s.cnt
        · simp [hic]
        · rw [if_neg hic]
          exact h.written hbusy i (by omega) }

/-- Every operation keeps the invariant. -/
theorem Inv.exec {i : Instr} {t : State} (ht : exec i s = .next t) : Inv t := by
  cases hi : isPortOp i with
  | true =>
    obtain ⟨p, hnext, hout⟩ := exec_portOp_out hi s
    obtain rfl := Host.Outcome.next.inj (hnext.symm.trans ht)
    refine h.setPort ?_
    rcases hout with hout | ⟨buf, now, hout⟩ <;> rw [hout]
    · exact h.port_out
    · exact decodeFrame_ne_incompleteParse _ buf now
  | false =>
    rcases exec_event hi ht with ⟨-, rfl⟩ | ⟨-, -, rfl⟩ | ⟨b, -, hp, rfl⟩ | ⟨b, now, -, hp, -, rfl⟩ |
      ⟨k, -, -, rfl | rfl, hk⟩ | ⟨-, -, rfl⟩ | ⟨-, -, rfl⟩ | ⟨-, -, rfl⟩
    · exact h.resetState
    · exact h.startState
    · exact h.rxSyncState hp b
    · exact h.rxPayloadState hp b now
    · exact h.deliver hk
    · exact h
    · exact h.tickState rfl
    · exact h.tickState rfl
    · exact h

/-- Every step keeps the invariant. -/
theorem Inv.step {t : State} (ht : step s = .next t) : Inv t := by
  rcases step_cases ht with ⟨-, rfl⟩ | ⟨r, v, more, -, hw⟩ | ⟨k, now, e, more, i, -, -, -, hx⟩ |
    ⟨now, e, more, b, bs, -, -, -, hx⟩ | ⟨now, e, more, b, bs, -, -, -, hx⟩ |
    ⟨x, more, p, w, bs, i, rest, -, -, -, -, -, hx⟩
  · exact h
  · obtain ⟨-, hv, rfl⟩ := writeLimit_next.mp hw
    exact (h.setInputs more).setLimit r hv
  · exact (h.setInputs more).exec hx
  · exact (((h.setInputs more).setStream bs).setPos _).exec hx
  · exact (((h.setInputs more).setStream bs).setPos _).exec hx
  · exact (h.setInputs more).exec hx

end

/-! ### Faults -/

theorem inPhase_ne_fault (p : Phase) (r : Refusal) (s t : State) (f : Fault) : inPhase p r s t ≠ .fault f := by
  unfold inPhase
  split <;> simp

theorem writeLimit_ne_fault (r : LimitReg) (v : Nat) (s : State) (f : Fault) : writeLimit r v s ≠ .fault f := by
  unfold writeLimit
  split
  · simp
  · split <;> simp

/-- An operation faults in PAYLOAD with a full buffer only. -/
theorem exec_fault {i : Instr} {s : State} {f : Fault} (h : exec i s = .fault f) :
    s.phase = .payload ∧ Config.frameLen ≤ s.cnt := by
  cases i
  case rxPayload b now =>
    simp only [exec, execRxPayload] at h
    split at h
    · assumption
    · exact absurd h (inPhase_ne_fault _ _ _ _ _)
  case start | rxSync | ttoSync | ttoPayload | terrSync | terrPayload | tickSync | tickPayload | tickIdle =>
    exact absurd h (inPhase_ne_fault _ _ _ _ _)
  all_goals exact nomatch h

/-- Taking the bytes of an activity leaves PHASE and CNT. -/
theorem fetch_word {s t : State} {p : Port} {x : Wires} {bs : List Byte} (h : fetch s = .word p x bs t) :
    t.phase = s.phase ∧ t.cnt = s.cnt := by
  unfold fetch at h
  split at h
  · cases h
  · next y rest _ =>
    cases y with
    | event ev now e =>
      simp only [fetchInput, fetchEvent] at h
      split at h
      · split at h
        · cases h; exact ⟨rfl, rfl⟩
        · split at h
          · cases h
          · cases h; exact ⟨rfl, rfl⟩
      all_goals cases h; exact ⟨rfl, rfl⟩
    | frame view buf now => cases h; exact ⟨rfl, rfl⟩
    | field off bytes now =>
      simp only [fetchInput, fetchField] at h
      split at h
      · cases h
      · split at h
        · cases h; exact ⟨rfl, rfl⟩
        · cases h
    | code hc => cases h; exact ⟨rfl, rfl⟩
    | writeSyncLimit v => cases h
    | writePayloadLimit v => cases h

/-- A step faults in PAYLOAD with a full buffer only. -/
theorem step_fault {s : State} {f : Fault} (h : step s = .fault f) :
    s.phase = .payload ∧ Config.frameLen ≤ s.cnt := by
  unfold step at h
  split at h
  · cases h
  · exact absurd h (writeLimit_ne_fault _ _ _ _)
  · cases h
  · next hf =>
    obtain ⟨hp, hc⟩ := fetch_word hf
    split at h
    · rw [← hp, ← hc]
      exact exec_fault h
    · cases h

/-! ### What writes RES, BUF and the limits -/

@[simp] theorem storeWindow_res (s : State) (b : Byte) : (storeWindow s b).res = s.res := by rw [storeWindow_frame]

@[simp] theorem rxSyncState_res (s : State) (b : Byte) : (rxSyncState s b).res = s.res := by
  rcases rxSyncState_cases s b with ⟨-, e⟩ | ⟨-, e⟩ <;> simp [e]

theorem keepsLimits_rxSyncState (s : State) (b : Byte) : KeepsLimits s (rxSyncState s b) := by
  rcases rxSyncState_cases s b with ⟨-, e⟩ | ⟨-, e⟩ <;> rw [e, storeWindow_frame] <;> exact ⟨rfl, rfl⟩

theorem keepsLimits_rxPayloadState (s : State) (b : Byte) (now : Time) : KeepsLimits s (rxPayloadState s b now) := by
  rcases rxPayloadState_cases s b now with ⟨-, e⟩ | ⟨-, e⟩ <;> rw [e] <;> exact ⟨rfl, rfl⟩

theorem keepsLimits_tickState (k : ErrorKind) (s : State) : KeepsLimits s (tickState k s) := by
  rcases tickState_cases k s with ⟨-, e⟩ | ⟨-, e⟩ <;> rw [e] <;> exact ⟨rfl, rfl⟩

theorem keepsBuf_tickState (k : ErrorKind) (s : State) : KeepsBuf s (tickState k s) := by
  rcases tickState_cases k s with ⟨-, e⟩ | ⟨-, e⟩ <;> rw [e] <;> exact fun _ => rfl

/-- A tick keeps RES or ends the read with the time-out of its phase. -/
theorem tickState_res (k : ErrorKind) (s : State) :
    (tickState k s).res = s.res ∨ ((tickState k s).phase = .idle ∧ (tickState k s).res = .err k) := by
  rcases tickState_cases k s with ⟨-, e⟩ | ⟨-, e⟩ <;> rw [e]
  · exact .inl rfl
  · exact .inr ⟨rfl, rfl⟩

/-- A payload byte keeps RES or ends the read with what Decode answers. -/
theorem rxPayloadState_res (s : State) (b : Byte) (now : Time) :
    (rxPayloadState s b now).res = s.res ∨
      ((rxPayloadState s b now).phase = .idle ∧ (rxPayloadState s b now).res ≠ .none) := by
  rcases rxPayloadState_cases s b now with ⟨-, e⟩ | ⟨-, e⟩ <;> rw [e]
  · exact .inr ⟨rfl, (deliver_res _ _).trans_ne (decodeFrame_ne_none _ _ _)⟩
  · exact .inl rfl

end Sys2Proof.Machine

namespace Sys2Proof

open Machine

/-- Settles O58: every operation keeps the invariant, and the step's other activities write nothing it speaks of but a
limit that fits. -/
theorem stepKeepsTheInvariant : Obligations.StepKeepsTheInvariant := fun _ _ h ht => h.step ht

/-- Settles O27, operation by operation. -/
theorem resultChangesOnlyAtTheEndOfARead : Obligations.ResultChangesOnlyAtTheEndOfARead := by
  intro i s t h
  cases hi : isPortOp i with
  | true =>
    obtain ⟨p, hnext⟩ := exec_portOp hi s
    obtain rfl := Host.Outcome.next.inj (hnext.symm.trans h)
    exact .inl rfl
  | false =>
    rcases exec_event hi h with ⟨rfl, rfl⟩ | ⟨rfl, -, rfl⟩ | ⟨b, -, -, rfl⟩ | ⟨b, now, -, hp, -, rfl⟩ |
      ⟨k, hbusy, -, rfl | rfl, -⟩ | ⟨-, hp, rfl⟩ | ⟨-, hp, rfl⟩ | ⟨-, -, rfl⟩
    · exact .inr (.inl ⟨.inl rfl, rfl⟩)
    · exact .inr (.inl ⟨.inr rfl, rfl⟩)
    · exact .inl (rxSyncState_res s b)
    · rcases rxPayloadState_res s b now with hres | ⟨hidle, hres⟩
      · exact .inl hres
      · exact .inr (.inr ⟨by simp [hp], hidle, hres⟩)
    · exact .inr (.inr ⟨hbusy, rfl, nofun⟩)
    · exact .inl rfl
    · rcases tickState_res .syncTimeout s with hres | ⟨hidle, hres⟩
      · exact .inl hres
      · exact .inr (.inr ⟨by simp [hp], hidle, by simp [hres]⟩)
    · rcases tickState_res .payloadTimeout s with hres | ⟨hidle, hres⟩
      · exact .inl hres
      · exact .inr (.inr ⟨by simp [hp], hidle, by simp [hres]⟩)
    · exact .inl rfl

/-- Settles O29, operation by operation. -/
theorem onlyRxWritesTheBuffer : Obligations.OnlyRxWritesTheBuffer := by
  intro i s t h hreset
  cases hi : isPortOp i with
  | true =>
    obtain ⟨p, hnext⟩ := exec_portOp hi s
    obtain rfl := Host.Outcome.next.inj (hnext.symm.trans h)
    exact ⟨⟨rfl, rfl⟩, fun _ _ _ => rfl⟩
  | false =>
    rcases exec_event hi h with ⟨rfl, -⟩ | ⟨-, -, rfl⟩ | ⟨b, rfl, -, rfl⟩ | ⟨b, now, rfl, -, -, rfl⟩ |
      ⟨k, -, -, rfl | rfl, -⟩ | ⟨-, -, rfl⟩ | ⟨-, -, rfl⟩ | ⟨-, -, rfl⟩
    · exact absurd rfl hreset
    · exact ⟨⟨rfl, rfl⟩, fun _ _ _ => rfl⟩
    · exact ⟨keepsLimits_rxSyncState s b, fun hrx => absurd rfl (hrx b)⟩
    · exact ⟨keepsLimits_rxPayloadState s b now, fun _ hrx => absurd rfl (hrx b now)⟩
    · exact ⟨⟨rfl, rfl⟩, fun _ _ _ => rfl⟩
    · exact ⟨⟨rfl, rfl⟩, fun _ _ _ => rfl⟩
    · exact ⟨keepsLimits_tickState _ s, fun _ _ => keepsBuf_tickState _ s⟩
    · exact ⟨keepsLimits_tickState _ s, fun _ _ => keepsBuf_tickState _ s⟩
    · exact ⟨⟨rfl, rfl⟩, fun _ _ _ => rfl⟩

/-- Settles O59: a step faults in PAYLOAD with a full buffer only, where the invariant has CNT below 56. -/
theorem noStepFaultsUnderTheInvariant : Obligations.NoStepFaultsUnderTheInvariant := by
  intro s f hinv hf
  obtain ⟨hp, hfull⟩ := step_fault hf
  exact Nat.not_lt.mpr hfull (hinv.payload_cnt hp).2

/-- Settles O60, by induction on the first buffer: the first offsets are equal, and the tails read alike. -/
theorem canonicalBuffersAreEqual : Obligations.CanonicalBuffersAreEqual :=
  fun _ _ hm hn h => Memory.eq_of_read_eq hm hn h

/-- Settles O57: the reset state is IDLE, with an empty buffer and both limits at the reset limit. -/
theorem resetHasTheInvariant : Obligations.ResetHasTheInvariant :=
  .of_idle rfl rfl (Nat.zero_le _) (Nat.two_pow_pos _) Config.resetLimit_lt_two_pow_timerW
    Config.resetLimit_lt_two_pow_timerW rfl nofun

end Sys2Proof

/-! Memory and stream of spec/20_memory.md: MemRead byte by byte, what the events leave of the environment, and the one
consumer of the stream. -/

namespace Sys2Proof.Machine

/-! ### MemRead of the three widths (spec/20_memory.md R36) -/

section
variable {buf : List Byte} {a : Nat}

theorem memRead_one (h : a + 1 ≤ buf.length) : memRead buf a 1 = (buf.getD a 0).toNat := by
  rw [memRead_succ buf a 0 h, memRead_zero, Nat.mul_zero, Nat.add_zero]

theorem memRead_two (h : a + 2 ≤ buf.length) :
    memRead buf a 2 = (buf.getD a 0).toNat + 256 * (buf.getD (a + 1) 0).toNat := by
  rw [memRead_succ buf a 1 (by omega), memRead_one h]

theorem memRead_four (h : a + 4 ≤ buf.length) :
    memRead buf a 4 = (buf.getD a 0).toNat + 256 * (buf.getD (a + 1) 0).toNat
      + 65536 * (buf.getD (a + 2) 0).toNat + 16777216 * (buf.getD (a + 3) 0).toNat := by
  rw [memRead_succ buf a 3 (by omega), memRead_succ buf (a + 1) 2 (by omega), memRead_two h]
  simp only [Nat.add_assoc, Nat.reduceAdd]
  omega

end

/-! ### The environment across an event -/

theorem KeepsEnv.refl (s : State) : KeepsEnv s s := ⟨rfl, rfl, rfl, rfl⟩

theorem keepsEnv_rxSyncState (s : State) (b : Byte) : KeepsEnv s (rxSyncState s b) := by
  rcases rxSyncState_cases s b with ⟨-, e⟩ | ⟨-, e⟩ <;> rw [e, storeWindow_frame] <;> exact ⟨rfl, rfl, rfl, rfl⟩

theorem keepsEnv_rxPayloadState (s : State) (b : Byte) (now : Time) : KeepsEnv s (rxPayloadState s b now) := by
  rcases rxPayloadState_cases s b now with ⟨-, e⟩ | ⟨-, e⟩ <;> rw [e] <;> exact ⟨rfl, rfl, rfl, rfl⟩

theorem keepsEnv_tickState (k : ErrorKind) (s : State) : KeepsEnv s (tickState k s) := by
  rcases tickState_cases k s with ⟨-, e⟩ | ⟨-, e⟩ <;> rw [e] <;> exact ⟨rfl, rfl, rfl, rfl⟩

section
variable {i : Instr} {s t : State}

/-- An event leaves the decoder port, the stream and the queue alone: its byte was taken before it ran. -/
theorem keepsEnv_exec (hi : isPortOp i = false) (h : exec i s = .next t) : KeepsEnv s t := by
  rcases exec_event hi h with ⟨-, rfl⟩ | ⟨-, -, rfl⟩ | ⟨b, -, -, rfl⟩ | ⟨b, now, -, -, -, rfl⟩ |
    ⟨k, -, -, rfl | rfl, -⟩ | ⟨-, -, rfl⟩ | ⟨-, -, rfl⟩ | ⟨-, -, rfl⟩
  · exact ⟨rfl, rfl, rfl, rfl⟩
  · exact ⟨rfl, rfl, rfl, rfl⟩
  · exact keepsEnv_rxSyncState s b
  · exact keepsEnv_rxPayloadState s b now
  · exact ⟨rfl, rfl, rfl, rfl⟩
  · exact .refl _
  · exact keepsEnv_tickState .syncTimeout s
  · exact keepsEnv_tickState .payloadTimeout s
  · exact .refl _

/-- An operation of the decoder port leaves all but the port alone. -/
theorem keepsBlock_exec (hi : isPortOp i = true) (h : exec i s = .next t) : KeepsBlock s t := by
  obtain ⟨p, hnext⟩ := exec_portOp hi s
  obtain rfl := Host.Outcome.next.inj (hnext.symm.trans h)
  exact keepsBlock_setPort s p

end

/-! ### Taking an activity, and the stream across a step (spec/20_memory.md R33) -/

theorem eventCode_inj {k l : EventKind} (h : eventCode k = eventCode l) : k = l := by
  simpa using congrArg eventOf h

theorem fetch_cons {s : State} {x : Input} {more : List Input} (h : s.inputs = x :: more) :
    fetch s = fetchInput x (s.setInputs more) := by
  rw [fetch, h]

@[simp] theorem setLimit_stream (r : LimitReg) (v : Nat) (s : State) : (setLimit r v s).stream = s.stream := by
  cases r <;> rfl

@[simp] theorem setLimit_pos (r : LimitReg) (v : Nat) (s : State) : (setLimit r v s).pos = s.pos := by
  cases r <;> rfl

/-- An event run after the step has taken the first byte takes no other: the rest of the stream stays. -/
theorem exec_after_take {i : Instr} {s t : State} {more : List Input} {bs : List Byte} (hi : isPortOp i = false)
    (h : exec i (((s.setInputs more).setStream bs).setPos (s.pos + 1)) = .next t) :
    t.stream = bs ∧ t.pos = s.pos + 1 := by
  obtain ⟨-, hstream, hpos, -⟩ := keepsEnv_exec hi h
  exact ⟨hstream, hpos⟩

end Sys2Proof.Machine

namespace Sys2Proof

open Machine

/-- Settles O30: the decoder port's operations write the port only, and no event touches the environment. -/
theorem decoderPortAndEventsAreApart : Obligations.DecoderPortAndEventsAreApart :=
  fun _ _ _ h => ⟨fun hi => keepsBlock_exec hi h, fun hi => keepsEnv_exec hi h⟩

/-- Settles O45, width by width. -/
theorem memReadIsLittleEndian : Obligations.MemReadIsLittleEndian :=
  fun _ _ => ⟨memRead_one, memRead_two, memRead_four⟩

/-- Settles O55, by what a step can do: the two cases of RX hand over the byte they take, and every other case leaves the
stream alone. -/
theorem onlyRxConsumesAByte : Obligations.OnlyRxConsumesAByte := by
  intro s t h
  rcases step_cases h with ⟨hin, rfl⟩ | ⟨r, v, more, hin, hw⟩ | ⟨k, now, e, more, i, hin, hk, hi, hx⟩ |
    ⟨now, e, more, b, bs, hin, hp, hs, hx⟩ | ⟨now, e, more, b, bs, hin, hp, hs, hx⟩ |
    ⟨x, more, p, w, bs, i, rest, hin, hev, -, -, hi, hx⟩
  · exact .inl ⟨rfl, rfl, by simp [hin]⟩
  · obtain ⟨-, -, rfl⟩ := writeLimit_next.mp hw
    exact .inl ⟨by simp, by simp, by cases r <;> simp [hin]⟩
  · obtain ⟨-, hstream, hpos, -⟩ := keepsEnv_exec hi hx
    refine .inl ⟨hstream, hpos, fun now' e' more' hrx => hk ?_⟩
    have hcode := hin.symm.trans hrx
    simp only [List.cons.injEq, Input.event.injEq] at hcode
    exact eventCode_inj hcode.1.1
  · obtain ⟨rfl, hpos⟩ := exec_after_take rfl hx
    exact .inr ⟨b, now, e, more, hin, by simp [hp], hs, hpos, _, rfl, .inl (hpos ▸ hx)⟩
  · obtain ⟨rfl, hpos⟩ := exec_after_take rfl hx
    exact .inr ⟨b, now, e, more, hin, by simp [hp], hs, hpos, _, rfl, .inr (hpos ▸ hx)⟩
  · obtain ⟨-, -, -, -, -, -, -, hstream, hpos, -⟩ := keepsBlock_exec hi hx
    refine .inl ⟨hstream, hpos, fun now e more' hrx => ?_⟩
    exact hev _ now e (List.cons.inj (hin.symm.trans hrx)).1

/-- Settles O52: taking the activity presents the bytes, and with none pending the block waits. -/
theorem stepRunsTheDecodedOperation : Obligations.StepRunsTheDecodedOperation :=
  ⟨fun _ _ _ _ _ _ _ _ _ hin hf hd => step_word ((fetch_cons hin).trans hf) hd, fun _ hin => step_wait hin⟩

end Sys2Proof

/-! The encoding of spec/30_encoding.md: decode and encode agree both ways, port by port; fields as slices of the frame
vector; the code numbers; the events' rows. -/

namespace Sys2Proof

/-! ### The event port (spec/30_encoding.md R56, R62) -/

theorem decode_opByte (e : EventKind) (p : Phase) (x : Wires) (bs : List Byte) :
    decode .event x (opByte p (eventCode e) :: bs) = decodeEventIn e p x bs :=
  decodeEvent_opByte p x bs (eventOf_eventCode e)

/-- RESET is read whatever the phase bits are. -/
theorem decode_reset {op : Byte} (h : op.extractLsb' 0 6 = eventCode .reset) (x : Wires) (bs : List Byte) :
    decode .event x (op :: bs) = .ok .reset bs := by
  simp only [decode, decodeEvent, h, eventOf_eventCode]

theorem decodeEventIn_rx_sync (x : Wires) (bs : List Byte) : decodeEventIn .rx .sync x bs = takeField8 .rxSync bs := rfl

theorem decodeEventIn_rx_payload (x : Wires) (bs : List Byte) :
    decodeEventIn .rx .payload x bs = takeField8 (.rxPayload · x.now) bs := rfl

/-! ### The decoder port: fields and codes (spec/30_encoding.md R46, R51) -/

/-- A value of `n` bytes is read back from its bytes. -/
theorem takeLe_ofNat {n w : Nat} (hw : 2 ^ w = 256 ^ n) (mk : BitVec w → Instr) (v : BitVec w) (rest : List Byte) :
    takeLe n (leBytes n v.toNat ++ rest) (fun u r => .ok (mk (BitVec.ofNat w u)) r) = .ok (mk v) rest := by
  rw [takeLe_leBytes, ← hw, Nat.mod_eq_of_lt v.isLt, BitVec.ofNat_toNat, BitVec.setWidth_eq]

theorem takeField32_leBytes (mk : Pattern → Instr) (v : Pattern) (rest : List Byte) :
    takeField32 mk (leBytes 4 v.toNat ++ rest) = .ok (mk v) rest :=
  takeLe_ofNat (by decide) mk v rest

theorem takeField8_cons (mk : Byte → Instr) (v : Byte) (rest : List Byte) :
    takeField8 mk (v :: rest) = .ok (mk v) rest := by
  simp [takeField8]

theorem decodeCode_invalid {hc : Byte} (h : 3 < hc) (rest : List Byte) :
    decodeCode (hc :: rest) = .ok (.hcInvalid hc) rest := by
  have hne (c : Byte) (hc3 : c ≤ 3) : hc ≠ c := fun he => absurd h (he ▸ BitVec.not_lt.mpr hc3)
  rw [decodeCode, if_neg (hne 0 (by decide)), if_neg (hne 1 (by decide)), if_neg (hne 2 (by decide)),
    if_neg (hne 3 (by decide))]

/-! ### The decoder port: frames (spec/30_encoding.md R62) -/

theorem isFrameOf_iff {buf : List Byte} {hc : Byte} :
    isFrameOf buf hc = true ↔ isFrame buf = true ∧ frameHc buf = hc := by
  simp [isFrameOf]

/-- A frame is in the variant of its own hold-type byte and in no other. -/
theorem isFrameOf_eq {buf : List Byte} {hc : Byte} (h : isFrameOf buf hc = true) (c : Byte) :
    isFrameOf buf c = decide (hc = c) := by
  obtain ⟨hframe, rfl⟩ := isFrameOf_iff.mp h
  simp [isFrameOf, hframe]

/-- A buffer in a row is read as that row, whatever follows it. -/
theorem decode_frame {view : FrameView} {buf : List Byte} {x : Wires} {i : Instr} (h : frameRow view buf x.now = some i)
    (rest : List Byte) : decode (.frame view buf.length) x (buf ++ rest) = .ok i rest := by
  simp [decode, decodeFrameWord, h]

/-! ### Encoding, then decoding -/

/-- The operation's encoding is read back at its port, with its wires, whatever bytes follow. -/
theorem decode_encode {i : Instr} (h : i.wellFormed = true) (x : Wires) (rest : List Byte) :
    decode (portOf i) (wiresOf x i) (encode i ++ rest) = .ok i rest := by
  cases i
  case reset => exact decode_opByte .reset .idle x rest
  case start => exact decode_opByte .start .idle x rest
  case rxSync b => exact (decode_opByte .rx .sync x (b :: rest)).trans (takeField8_cons _ b rest)
  case rxPayload b now =>
    exact (decode_opByte .rx .payload { x with now := now } (b :: rest)).trans (takeField8_cons (.rxPayload · now) b rest)
  case ttoSync => exact decode_opByte .tto .sync x rest
  case ttoPayload => exact decode_opByte .tto .payload x rest
  case terrSync e => exact decode_opByte .terr .sync { x with err := e } rest
  case terrPayload e => exact decode_opByte .terr .payload { x with err := e } rest
  case tickSync => exact decode_opByte .tick .sync x rest
  case tickPayload => exact decode_opByte .tick .payload x rest
  case tickIdle => exact decode_opByte .tick .idle x rest
  case frame56 buf now => exact decode_frame (view := .whole) rfl rest
  case frame56Valid buf now => exact decode_frame (view := .valid) (if_pos h) rest
  case frame56Current | frame56Maximum | frame56Minimum | frame56Average =>
    exact decode_frame (view := .variant) (by simp [frameRow, isFrameOf_eq h, wiresOf]) rest
  case fieldSync v => exact takeLe_ofNat (n := 5) (by decide) .fieldSync v rest
  case fieldTr v now => exact takeLe_ofNat (n := 2) (by decide) (.fieldTr · now) v rest
  case fieldCf0 v | fieldCf1 v | fieldCf2 v | fieldCf3 v | fieldHf0 v | fieldHf1 v | fieldHf2 v | fieldHf3 v | fieldMt v
      | fieldUnk v => exact takeField32_leBytes _ v rest
  case fieldCe0 v | fieldCe1 v | fieldCe2 v | fieldCe3 v | fieldHe0 v | fieldHe1 v | fieldHe2 v | fieldHe3 v
      | fieldHc v => exact takeField8_cons _ v rest
  case hcCurrent | hcMaximum | hcMinimum | hcAverage => rfl
  case hcInvalid hc => exact decodeCode_invalid (of_decide_eq_true h) rest

/-! ### Decoding, then encoding -/

/-- The operation is presented at port `p` with wires `x`, and `bs` is its encoding with `rest` after it. -/
def WrittenAs (i : Instr) (p : Port) (x : Wires) (bs rest : List Byte) : Prop :=
  portOf i = p ∧ wiresOf x i = x ∧ encode i ++ rest = bs

section
variable {x : Wires} {bs rest : List Byte} {i : Instr}

/-- An operation byte that decodes has RESET's event bits, or is that of an event in a phase that decodes. -/
theorem decodeEvent_ok (h : decodeEvent x bs = .ok i rest) :
    (i = .reset ∧ ∃ op, bs = op :: rest ∧ op.extractLsb' 0 6 = eventCode .reset) ∨
    ∃ e p bs', bs = opByte p (eventCode e) :: bs' ∧ e ≠ .reset ∧ decodeEventIn e p x bs' = .ok i rest := by
  cases bs with
  | nil => cases h
  | cons op bs =>
    simp only [decodeEvent] at h
    split at h
    · cases h
    · next he => cases h; exact .inl ⟨rfl, op, rfl, eventCode_of_eventOf he⟩
    · cases h
    · next e p hne he hp => exact .inr ⟨e, p, bs, by rw [opByte_of_codes he hp], hne, h⟩

theorem decodeEventIn_writtenAs {e : EventKind} {p : Phase} (he : e ≠ .reset) (h : decodeEventIn e p x bs = .ok i rest) :
    WrittenAs i .event x (opByte p (eventCode e) :: bs) rest := by
  cases e
  case reset => exact absurd rfl he
  case rx =>
    cases p
    case idle => cases h
    case sync =>
      obtain ⟨b, rfl, rfl⟩ := takeField8_ok (decodeEventIn_rx_sync x bs ▸ h)
      exact ⟨rfl, rfl, rfl⟩
    case payload =>
      obtain ⟨b, rfl, rfl⟩ := takeField8_ok (decodeEventIn_rx_payload x bs ▸ h)
      exact ⟨rfl, rfl, rfl⟩
  all_goals
    cases p <;> cases h <;> exact ⟨rfl, rfl, rfl⟩

theorem frameRow_writtenAs {view : FrameView} {buf : List Byte} (h : frameRow view buf x.now = some i) :
    WrittenAs i (.frame view buf.length) x (buf ++ rest) rest := by
  unfold frameRow at h
  repeat' split at h
  all_goals cases h <;> exact ⟨rfl, rfl, rfl⟩

theorem decodeFrameWord_writtenAs {view : FrameView} {n : Nat} (h : decodeFrameWord view n x bs = .ok i rest) :
    WrittenAs i (.frame view n) x bs rest := by
  unfold decodeFrameWord at h
  split at h
  · cases h
  · next hlen =>
    split at h
    · next hrow =>
      cases h
      have hw := frameRow_writtenAs (rest := bs.drop n) hrow
      rwa [List.take_append_drop, List.length_take_of_le (Nat.not_lt.mp hlen)] at hw
    · cases h

theorem decodeField_writtenAs {off : Nat} (h : decodeField off x bs = .ok i rest) :
    WrittenAs i (.field off) x bs rest := by
  unfold decodeField at h
  split at h
  case h_1 =>
    obtain ⟨hlen, h⟩ := takeLe_ok h
    cases h
    exact ⟨rfl, rfl, leBytes_ofNat_take 5 40 (by decide) bs hlen⟩
  case h_21 =>
    obtain ⟨hlen, h⟩ := takeLe_ok h
    cases h
    exact ⟨rfl, rfl, leBytes_ofNat_take 2 16 (by decide) bs hlen⟩
  case h_22 => cases h
  -- the nine one-byte fields: flags and hold type
  case h_6 | h_7 | h_8 | h_9 | h_14 | h_15 | h_16 | h_17 | h_20 =>
    obtain ⟨v, rfl, rfl⟩ := takeField8_ok h
    exact ⟨rfl, rfl, rfl⟩
  -- the ten 32-bit fields
  all_goals
    obtain ⟨v, rfl, rfl⟩ := takeField32_ok h
    exact ⟨rfl, rfl, rfl⟩

theorem decodeCode_writtenAs (h : decodeCode bs = .ok i rest) : WrittenAs i .code x bs rest := by
  cases bs with
  | nil => cases h
  | cons hc bs =>
    simp only [decodeCode] at h
    repeat' split at h
    all_goals
      cases h
      subst_vars
      exact ⟨rfl, rfl, rfl⟩

/-- What a port decodes is written as the bytes it was read from, or is RESET, whose phase bits are not kept. -/
theorem decode_writtenAs {p : Port} (h : decode p x bs = .ok i rest) :
    WrittenAs i p x bs rest ∨
      (p = .event ∧ i = .reset ∧ ∃ op, bs = op :: rest ∧ op.extractLsb' 0 6 = eventCode .reset) := by
  cases p with
  | event =>
    rcases decodeEvent_ok h with hreset | ⟨e, p, bs', rfl, hne, he⟩
    · exact .inr ⟨rfl, hreset⟩
    · exact .inl (decodeEventIn_writtenAs hne he)
  | frame view n => exact .inl (decodeFrameWord_writtenAs h)
  | field off => exact .inl (decodeField_writtenAs h)
  | code => exact .inl (decodeCode_writtenAs h)

end

/-! ### Numbers and slices (spec/20_memory.md R36) -/

section
variable {bs : List Byte} {n : Nat}

theorem leValue_eq_take_add_drop (h : n ≤ bs.length) :
    leValue bs = leValue (bs.take n) + 256 ^ n * leValue (bs.drop n) := by
  have happ := leValue_append (bs.take n) (bs.drop n)
  rwa [List.take_append_drop, List.length_take_of_le h] at happ

theorem leValue_take_lt : leValue (bs.take n) < 256 ^ n :=
  (leValue_lt _).trans_le (Nat.pow_le_pow_right (by decide) (List.length_take_le n bs))

theorem leValue_take (h : n ≤ bs.length) : leValue (bs.take n) = leValue bs % 256 ^ n := by
  rw [leValue_eq_take_add_drop h, Nat.add_mul_mod_self_left, Nat.mod_eq_of_lt leValue_take_lt]

theorem leValue_drop (h : n ≤ bs.length) : leValue (bs.drop n) = leValue bs / 256 ^ n := by
  rw [leValue_eq_take_add_drop h, Nat.add_mul_div_left _ _ (by positivity), Nat.div_eq_of_lt leValue_take_lt,
    Nat.zero_add]

/-- A word as wide as the bytes holds the number they spell. -/
theorem toNat_ofNat_leValue {w : Nat} (hw : 8 * bs.length = w) : (BitVec.ofNat w (leValue bs)).toNat = leValue bs := by
  subst hw
  rw [BitVec.toNat_ofNat, Nat.mod_eq_of_lt (pow_mul 2 8 bs.length ▸ leValue_lt bs)]

end

end Sys2Proof

namespace Sys2Proof.Machine

/-- 56 bytes are 448 bits, so the frame vector spells the buffer whole. -/
theorem frameVector_toNat {buf : List Byte} (h : buf.length = 56) : (frameVector buf).toNat = leValue buf :=
  toNat_ofNat_leValue (by rw [h])

/-- A slice of the frame vector is the number its bytes spell. -/
theorem frameVector_slice {buf : List Byte} {a n : Nat} (h : buf.length = 56) (ha : a + n ≤ 56) :
    (frameVector buf).toNat / 256 ^ a % 256 ^ n = memRead buf a n := by
  rw [memRead, leValue_take (by rw [List.length_drop]; omega), leValue_drop (by omega), frameVector_toNat h]

/-! ### The hold-type map (spec/30_encoding.md R51) -/

/-- The mapping answers on the port's code output and leaves everything else alone. -/
theorem mapHold_answers {hc : Byte} {c : CodeOut} {s : State} (h : mapHold hc s = portCode c s) :
    (mapHold hc s).port = { s.port with code := c } ∧ KeepsBlock s (mapHold hc s) := by
  rw [h]
  exact ⟨rfl, keepsBlock_setPort _ _⟩

theorem mapHold_of_none {hc : Byte} (h : holdOf hc = none) (s : State) : mapHold hc s = portCode .invalidHoldType s := by
  rw [mapHold, h]

/-! ### The step with an event at the head of the queue (spec/40_host_commands.md R68) -/

/-- An event that carries no byte of the stream runs as the operation of its row in the current phase. -/
theorem step_event_row {s : State} {k : EventKind} {now : Time} {e : IoCode} {more : List Input} {i : Instr}
    (hin : s.inputs = .event (eventCode k) now e :: more) (hk : k ≠ .rx)
    (hrow : decodeEventIn k s.phase { now := now, err := e } [] = .ok i []) :
    step s = exec i { s with inputs := more } := by
  rw [step_event hin hk, hrow]
  rfl

end Sys2Proof.Machine

namespace Sys2Proof

open Machine

/-- Settles O49: every operation is read back at its port, event by its operation byte, frame by its row, field by its
bytes, code by its value. -/
theorem decodeOfEncode : Obligations.DecodeOfEncode := fun _ x rest h => decode_encode h x rest

/-- Settles O46: dividing drops the low bytes of the vector's number, and the remainder keeps the low ones of those. -/
theorem fieldsAreSlicesOfTheFrame : Obligations.FieldsAreSlicesOfTheFrame := fun _ _ _ h ha => frameVector_slice h ha

/-- Settles O50: each port's decoder writes back what it read, and RESET alone does not look at the phase bits. -/
theorem encodeOfDecode : Obligations.EncodeOfDecode := by
  intro p x bs rest i h
  rcases decode_writtenAs h with ⟨hport, hwires, hbytes⟩ | ⟨rfl, rfl, hop⟩
  · exact ⟨hport, hwires, .inl hbytes⟩
  · exact ⟨rfl, rfl, .inr ⟨rfl, hop⟩⟩

/-- Settles O53, row by row: the operation byte of the event in the phase decodes to the row, and RX takes the first byte
of the stream with it. -/
theorem eventsAreTheirRows : Obligations.EventsAreTheirRows := by
  intro s now e more k hin
  refine ⟨?reset, ?_, ?_, ?_, ?_, ?_, ?_, ?_, ?_, ?rx⟩
  case reset => rintro rfl; exact step_event_row hin nofun rfl
  case rx =>
    rintro b bs rfl hs
    have taken : ((s.setInputs more).setStream bs).setPos (s.pos + 1) =
      { s with inputs := more, stream := bs, pos := s.pos + 1 } := rfl
    exact ⟨fun hp => taken ▸ step_rx_sync hin hp hs, fun hp => taken ▸ step_rx_payload hin hp hs⟩
  all_goals
    rintro rfl hp
    exact step_event_row hin nofun (by rw [hp]; rfl)

/-- Settles O8: the codes are the definitions' own, and a hold type is numbered by the code byte it was read from. -/
theorem phaseAndResultCodes : Obligations.PhaseAndResultCodes :=
  ⟨⟨rfl, rfl, rfl, rfl⟩, ⟨rfl, fun _ => rfl, rfl, rfl, fun _ => rfl, rfl, rfl, rfl, rfl⟩,
    fun hc h hh => ((holdOf_eq_some hc h).mp hh).symm⟩

/-- Settles O44: the mapping writes the port's code output and nothing else. -/
theorem holdCodesMap : Obligations.HoldCodesMap := by
  intro s
  refine ⟨?_, fun hc hlt => ?_⟩
  · simp only [List.forall_mem_cons, List.not_mem_nil, false_implies, implies_true, and_true]
    exact ⟨⟨mapHold 0 s, rfl, mapHold_answers rfl⟩, ⟨mapHold 1 s, rfl, mapHold_answers rfl⟩,
      ⟨mapHold 2 s, rfl, mapHold_answers rfl⟩, ⟨mapHold 3 s, rfl, mapHold_answers rfl⟩⟩
  · exact ⟨mapHold hc s, rfl, mapHold_answers (mapHold_of_none ((holdOf_eq_none hc).mpr hlt) s)⟩

/-- Settles O51, word by word, at the port each is read at. -/
theorem knownWordsDecode : Obligations.KnownWordsDecode := fun x =>
  ⟨decode_encode (i := .rxSync 0xAA#8) rfl x [],
    decode_reset rfl x [],
    decode_opByte .terr .sync x [],
    decode_encode (i := .rxPayload 0x15#8 x.now) rfl x [],
    decode_encode (i := .fieldMt 0x41D28000#32) rfl x [],
    decode_encode (i := .hcInvalid 0x10#8) rfl x [],
    decode_opByte .start .sync x [],
    decode_opByte .rx .idle x []⟩

end Sys2Proof

/-! The host's operations of spec/40_host_commands.md: RESET and START, the limit writes, the read-out, the transitions of
PHASE, and the activities that stop the step by name. -/

namespace Sys2Proof.Machine

/-! ### Limit writes (spec/40_host_commands.md R67, spec/70_reset_and_hazards.md R136) -/

theorem writeLimit_of_busy {s : State} (hp : s.phase ≠ .idle) (r : LimitReg) (v : Nat) :
    writeLimit r v s = .refused .limitWriteWhileBusy := by
  simp [writeLimit, hp]

section
variable {s : State} {v : Nat} {more : List Input}

theorem step_writeSyncLimit (hin : s.inputs = .writeSyncLimit v :: more) :
    step s = writeLimit .sync v (s.setInputs more) := by
  rw [step, fetch_cons hin, fetchInput]

theorem step_writePayloadLimit (hin : s.inputs = .writePayloadLimit v :: more) :
    step s = writeLimit .payload v (s.setInputs more) := by
  rw [step, fetch_cons hin, fetchInput]

end

/-! ### Flags and read-out (spec/40_host_commands.md R66) -/

/-- DONE follows from the kind code of the result. -/
theorem done_of_kindCode {s : State} {c : BitVec 4} (hk : s.res.kindCode = c) (hc : c ≠ 0) : s.done = true := by
  rw [State.done, hk]
  exact decide_eq_true hc

section
variable {s : State}

theorem readResIo_of_io {e : IoCode} (h : s.res = .err (.io e)) : readResIo s = e := by
  rw [readResIo, h]

variable {r : Reading} (h : s.res = .ok r)
include h

theorem readCur_of_ok (i : Fin 4) : readCur s i = r.cur.get i := by
  rw [readCur, h]

theorem readHeld_of_ok (i : Fin 4) : readHeld s i = r.held.get i := by
  rw [readHeld, h]

theorem readMeter_of_ok : readMeter s = r.meter := by
  rw [readMeter, h]

theorem readHold_of_ok : readHold s = r.hold := by
  rw [readHold, h]

theorem readCaptime_of_ok : readCaptime s = r.captime := by
  rw [readCaptime, h]

end

/-! ### PHASE (spec/40_host_commands.md R69) -/

/-- A byte in SYNC keeps PHASE or begins the payload. -/
theorem rxSyncState_phase (s : State) (b : Byte) :
    (rxSyncState s b).phase = s.phase ∨ (rxSyncState s b).phase = .payload := by
  rcases rxSyncState_cases s b with ⟨-, e⟩ | ⟨-, e⟩ <;> rw [e]
  · exact .inr rfl
  · exact .inl (by rw [storeWindow_frame])

/-- A payload byte keeps PHASE or ends the read with what Decode answers. -/
theorem rxPayloadState_phase (s : State) (b : Byte) (now : Time) :
    (rxPayloadState s b now).phase = s.phase ∨
      ((rxPayloadState s b now).phase = .idle ∧ (rxPayloadState s b now).res ≠ .none) := by
  rcases rxPayloadState_cases s b now with ⟨-, e⟩ | ⟨-, e⟩ <;> rw [e]
  · exact .inr ⟨rfl, (deliver_res _ _).trans_ne (decodeFrame_ne_none _ _ _)⟩
  · exact .inl rfl

/-- A tick keeps PHASE or ends the read with an error. -/
theorem tickState_phase (k : ErrorKind) (s : State) :
    (tickState k s).phase = s.phase ∨ ((tickState k s).phase = .idle ∧ (tickState k s).res ≠ .none) := by
  rcases tickState_cases k s with ⟨-, e⟩ | ⟨-, e⟩ <;> rw [e]
  · exact .inl rfl
  · exact .inr ⟨rfl, nofun⟩

/-! ### Events without a row (spec/40_host_commands.md R65, spec/43_transport_events_and_timer.md R90) -/

/-- A vector that is no event's code is no event. -/
theorem eventOf_eq_none {ev : BitVec 6} (h : ∀ k, ev ≠ eventCode k) : eventOf ev = none := by
  cases hk : eventOf ev with
  | none => rfl
  | some k => exact absurd (eventCode_of_eventOf hk) (h k)

/-- An event that carries no byte of the stream and has no row in the current phase is refused by name. -/
theorem step_event_reject {s : State} {k : EventKind} {now : Time} {e : IoCode} {more : List Input} {r : Reject}
    (hin : s.inputs = .event (eventCode k) now e :: more) (hk : k ≠ .rx)
    (hrow : decodeEventIn k s.phase { now := now, err := e } [] = .reject r) :
    step s = .refused (rejection r) := by
  rw [step_event hin hk, hrow]

/-- START while busy has no row. -/
theorem decodeEventIn_start_busy {p : Phase} (hp : p ≠ .idle) (x : Wires) (bs : List Byte) :
    decodeEventIn .start p x bs = .reject .startWhileBusy := by
  cases p
  · exact absurd rfl hp
  · rfl
  · rfl

end Sys2Proof.Machine

namespace Sys2Proof

open Machine

/-- Settles O26, operation by operation: what can move PHASE is RESET, START, the byte that completes the marker, and what
ends a read, which leaves a result. -/
theorem phaseMovesByTheTable : Obligations.PhaseMovesByTheTable := by
  intro i s t h
  cases hi : isPortOp i with
  | true =>
    obtain ⟨hphase, -⟩ := keepsBlock_exec hi h
    exact .inl hphase
  | false =>
    rcases exec_event hi h with ⟨rfl, rfl⟩ | ⟨rfl, hp, rfl⟩ | ⟨b, rfl, hp, rfl⟩ | ⟨b, now, -, hp, -, rfl⟩ |
      ⟨k, hbusy, -, rfl | rfl, -⟩ | ⟨-, hp, rfl⟩ | ⟨-, hp, rfl⟩ | ⟨-, -, rfl⟩
    · exact .inr (.inl ⟨rfl, rfl⟩)
    · exact .inr (.inr (.inl ⟨rfl, hp, rfl⟩))
    · exact (rxSyncState_phase s b).imp_right fun hpay => .inr (.inr (.inl ⟨b, rfl, hp, hpay⟩))
    · exact (rxPayloadState_phase s b now).imp_right fun hend => .inr (.inr (.inr ⟨by simp [hp], hend⟩))
    · exact .inr (.inr (.inr (.inr ⟨hbusy, rfl, nofun⟩)))
    · exact .inl rfl
    · exact (tickState_phase .syncTimeout s).imp_right fun hend => .inr (.inr (.inr ⟨by simp [hp], hend⟩))
    · exact (tickState_phase .payloadTimeout s).imp_right fun hend => .inr (.inr (.inr ⟨by simp [hp], hend⟩))
    · exact .inl rfl

/-- Settles O2: RESET asks for no phase, and its register writes leave the stream alone. -/
theorem resetEventTakenInEveryState : Obligations.ResetEventTakenInEveryState := fun s =>
  ⟨resetState s, rfl, rfl, rfl, rfl, rfl, rfl, rfl, rfl, rfl, rfl, rfl, rfl⟩

/-- Settles O3: in IDLE the phase check passes, and START writes none of the registers that stay. -/
theorem startBeginsARead : Obligations.StartBeginsARead := fun s hp =>
  ⟨startState s, inPhase_of_eq hp, rfl, rfl, rfl, rfl, rfl, rfl, rfl, fun _ => rfl, ⟨rfl, rfl⟩, rfl, rfl, rfl, rfl⟩

/-- Settles O4, by the phase check of START. -/
theorem startWhileBusyIsRefused : Obligations.StartWhileBusyIsRefused := fun _ hp => inPhase_of_ne hp

/-- Settles O5: the step is the register write, which IDLE and the number's width allow. -/
theorem hostWriteChangesOneLimit : Obligations.HostWriteChangesOneLimit := fun _ _ _ hp hv =>
  ⟨fun hin => (step_writeSyncLimit hin).trans (writeLimit_next.mpr ⟨hp, hv, rfl⟩),
    fun hin => (step_writePayloadLimit hin).trans (writeLimit_next.mpr ⟨hp, hv, rfl⟩)⟩

/-- Settles O7, register by register; DONE follows from the kind code. -/
theorem readOutGivesTheResult : Obligations.ReadOutGivesTheResult := by
  intro s
  refine ⟨fun e h => ?_, fun r h => ?_⟩
  · have hk : s.res.kindCode = 4 := by rw [h]; rfl
    exact ⟨readResIo_of_io h, hk, done_of_kindCode hk (by decide)⟩
  · have hk : s.res.kindCode = 1 := by rw [h]; rfl
    exact ⟨readCur_of_ok h, readHeld_of_ok h, readMeter_of_ok h, readHold_of_ok h, readCaptime_of_ok h, hk,
      done_of_kindCode hk (by decide)⟩

/-- Settles O54, activity by activity: each stop is the one its decoding, its fetch or its register write names. -/
theorem eventsWithoutARowAreRefused : Obligations.EventsWithoutARowAreRefused := by
  intro s now e more
  refine ⟨?notEnabled, ?startBusy, ?notOneHot, ?noByte, ?limitBusy⟩
  case notEnabled =>
    rintro k (rfl | rfl | rfl) hp hin
    · exact step_rx_idle hin hp
    · exact step_event_reject hin nofun (r := .notEnabled) (by rw [hp]; rfl)
    · exact step_event_reject hin nofun (r := .notEnabled) (by rw [hp]; rfl)
  case startBusy => exact fun hp hin => step_event_reject hin nofun (decodeEventIn_start_busy hp _ _)
  case notOneHot => exact fun ev hev hin => step_not_one_hot hin (eventOf_eq_none hev)
  case noByte => exact fun hp hs hin => step_rx_empty hin hp hs
  case limitBusy =>
    rintro v hp (hin | hin)
    · exact (step_writeSyncLimit hin).trans (writeLimit_of_busy (s := s.setInputs more) hp .sync v)
    · exact (step_writePayloadLimit hin).trans (writeLimit_of_busy (s := s.setInputs more) hp .payload v)

end Sys2Proof

/-! The sync scan of spec/41_sync_scan.md: where the detector's phase ends, the counter that detects the marker as well,
and a whole attempt, from noise to the reading. -/

namespace Sys2Proof.Machine

/-! ### A byte in SYNC (spec/41_sync_scan.md R70) -/

section
variable (s : State) (b : Byte)

@[simp] theorem rxSyncState_cnt : (rxSyncState s b).cnt = (storeWindow s b).cnt := by
  rcases rxSyncState_cases s b with ⟨-, e⟩ | ⟨-, e⟩ <;> rw [e]
  rfl

@[simp] theorem rxSyncState_buf : (rxSyncState s b).buf = (storeWindow s b).buf := by
  rcases rxSyncState_cases s b with ⟨-, e⟩ | ⟨-, e⟩ <;> rw [e]
  rfl

@[simp] theorem rxSyncState_draws : (rxSyncState s b).draws = s.draws := by
  rcases rxSyncState_cases s b with ⟨-, e⟩ | ⟨-, e⟩ <;> rw [e, storeWindow_frame]
  rfl

variable {s b}

theorem rxSyncState_of_marker (hm : syncWindow s b = Config.marker) :
    (rxSyncState s b).phase = .payload ∧ (rxSyncState s b).timer = s.payloadLimit := by
  rw [rxSyncState, if_pos hm]
  exact ⟨rfl, rfl⟩

theorem rxSyncState_of_ne_marker (hm : syncWindow s b ≠ Config.marker) :
    (rxSyncState s b).phase = s.phase ∧ (rxSyncState s b).timer = s.timer := by
  rw [rxSyncState, if_neg hm, storeWindow_frame]
  exact ⟨rfl, rfl⟩

end

/-! ### The byte that ends the scan (spec/41_sync_scan.md R71) -/

section
variable {s t : State} {bs : List Byte} {b : Byte} (h : Scanning s bs t)
include h

theorem Scanning.window_eq_marker_iff : syncWindow t b = Config.marker ↔ Config.marker <:+ bs ++ [b] := by
  rw [marker_suffix, window_last5 h]

theorem Scanning.phase_payload_iff : (rxSyncState t b).phase = .payload ↔ Config.marker <:+ bs ++ [b] := by
  rw [← h.window_eq_marker_iff]
  refine ⟨fun hp => ?_, fun hm => (rxSyncState_of_marker hm).1⟩
  by_contra hm
  obtain ⟨hsync, -⟩ := rxSyncState_of_ne_marker hm
  rw [hp, h.phase] at hsync
  cases hsync

/-- Where the marker ends, the payload begins: five bytes are held, the marker, and the timer has restarted. -/
theorem Scanning.rxSyncState_of_suffix (hm : Config.marker <:+ bs ++ [b]) :
    (rxSyncState t b).cnt = 5 ∧ (rxSyncState t b).timer = s.payloadLimit ∧
      bufBytes (rxSyncState t b) 0 5 = Config.marker := by
  have hwin := h.window_eq_marker_iff.mpr hm
  have hcnt : t.cnt ≤ 5 := h.cnt.trans_le (min_le_left _ _)
  have h5 := storeWindow_cnt_of_marker hcnt hwin
  obtain ⟨-, htimer⟩ := rxSyncState_of_marker hwin
  obtain ⟨buf, cnt, hrest⟩ := h.rest
  refine ⟨by rw [rxSyncState_cnt, h5], by rw [htimer, hrest], ?_⟩
  rw [bufBytes_full_window hcnt h5 (rxSyncState_buf t b) (rxSyncState_draws t b), hwin]

end

/-! ### The counter of marker bytes (spec/41_sync_scan.md R72) -/

/-- One byte more of the marker ends the bytes where one less did before the byte and the byte is the next one. -/
theorem marker_take_succ_suffix {k : Nat} (hk : k < Config.marker.length) (bs : List Byte) (b : Byte) :
    Config.marker.take (k + 1) <:+ bs ++ [b] ↔ Config.marker.take k <:+ bs ∧ Config.marker[k]? = some b := by
  have hone : [Config.marker[k]].length = [b].length := rfl
  rw [List.take_add_one, List.getElem?_eq_getElem hk, Option.toList_some, List.suffix_append_inj_of_length_eq hone,
    List.singleton_inj, Option.some_inj]

/-- No byte of the marker stands in it twice. -/
theorem marker_getElem?_inj {i j : Nat} {b : Byte} (hi : Config.marker[i]? = some b) (hj : Config.marker[j]? = some b) :
    i = j :=
  (List.getElem?_inj (List.getElem?_eq_some_iff.mp hi).1 (by decide)).mp (hi.trans hj.symm)

theorem prefixCounter_le {m : Nat} (b : Byte) : prefixCounter m b ≤ 5 := by
  unfold prefixCounter
  split
  · next hnext => exact (List.getElem?_eq_some_iff.mp hnext).1
  · split <;> omega

/-- The counter's update: the marker's next byte lengthens the match; any other byte ends it, and the marker's first one
begins another. -/
theorem prefixCounter_eq_succ_iff {m k : Nat} {b : Byte} :
    prefixCounter m b = k + 1 ↔ (k = 0 ∨ k = m) ∧ Config.marker[k]? = some b := by
  unfold prefixCounter
  by_cases hnext : Config.marker[m]? = some b
  · rw [if_pos hnext, Nat.succ_inj]
    refine ⟨?_, fun ⟨_, hk⟩ => marker_getElem?_inj hnext hk⟩
    rintro rfl
    exact ⟨.inr rfl, hnext⟩
  · have hfirst : (k = 0 ∨ k = m) ∧ Config.marker[k]? = some b ↔ k = 0 ∧ b = 0xAA#8 := by
      constructor
      · rintro ⟨rfl | rfl, hk⟩
        · exact ⟨rfl, (Option.some_inj.mp hk).symm⟩
        · exact absurd hk hnext
      · rintro ⟨rfl, rfl⟩
        exact ⟨.inl rfl, rfl⟩
    rw [if_neg hnext, hfirst]
    split <;> simp [*, eq_comm]

/-- `m` counts the marker bytes matched at the end of `bs`: of what the marker begins with, nothing but its first
`m` bytes, and the empty list, ends there. -/
structure Matched (m : Nat) (bs : List Byte) : Prop where
  le : m ≤ 5
  suffix_iff : ∀ k, k ≤ 5 → (Config.marker.take k <:+ bs ↔ k = 0 ∨ k = m)

theorem Matched.nil : Matched 0 [] where
  le := by decide
  suffix_iff := by decide

theorem Matched.concat {m : Nat} {bs : List Byte} (h : Matched m bs) (b : Byte) :
    Matched (prefixCounter m b) (bs ++ [b]) := by
  refine ⟨prefixCounter_le b, fun k hk => ?_⟩
  cases k with
  | zero => simp
  | succ k =>
    have hk5 : k < 5 := hk
    rw [marker_take_succ_suffix hk5, h.suffix_iff k hk5.le, ← prefixCounter_eq_succ_iff]
    simp [eq_comm]

theorem matched_foldl (bs : List Byte) : Matched (bs.foldl prefixCounter 0) bs := by
  induction bs using List.reverseRecOn with
  | nil => exact .nil
  | append_singleton bs b ih =>
    rw [List.foldl_append]
    exact ih.concat b

theorem Matched.marker_suffix_iff {m : Nat} {bs : List Byte} (h : Matched m bs) : Config.marker <:+ bs ↔ m = 5 := by
  have h5 := h.suffix_iff 5 le_rfl
  rw [show Config.marker.take 5 = Config.marker from rfl] at h5
  rw [h5]
  omega

/-! ### The payload bytes of a frame (spec/42_payload_read.md R77) -/

/-- One operation more. -/
theorem execAll_concat {is : List Instr} {i : Instr} {s t u : State} (h : execAll is s = .next t)
    (hi : exec i t = .next u) : execAll (is ++ [i]) s = .next u := by
  rw [execAll_append _ _ _ _ h, execAll, hi]
  rfl

/-- The payload bytes `bs` have been taken from the state `s` on, and the frame is not whole yet. -/
structure Filling (s : State) (bs : List Byte) (t : State) : Prop where
  phase : t.phase = .payload
  cnt : t.cnt = s.cnt + bs.length
  timer : t.timer = s.timer
  bytes : bufBytes t 0 t.cnt = bufBytes s 0 s.cnt ++ bs

@[simp] theorem storePayload_cnt (s : State) (b : Byte) : (storePayload s b).cnt = s.cnt + 1 := rfl

theorem rxPayloadState_of_room {s : State} (hc : s.cnt < 55) (b : Byte) (now : Time) :
    rxPayloadState s b now = storePayload s b :=
  if_neg fun hlast => hc.ne (Nat.succ_injective hlast)

theorem Filling.cons {s t : State} {b : Byte} {bs : List Byte} (h : Filling (storePayload s b) bs t) :
    Filling s (b :: bs) t where
  phase := h.phase
  cnt := by rw [h.cnt, storePayload_cnt, List.length_cons, Nat.add_right_comm, Nat.add_assoc]
  timer := h.timer
  bytes := by rw [h.bytes, storePayload_cnt, storePayload_all, List.append_assoc, List.singleton_append]

/-- Bytes that do not fill the frame are stored, whatever they are. -/
theorem fill_all {s : State} (rs : List (Byte × Time)) (hp : s.phase = .payload) (hlen : s.cnt + rs.length ≤ 55) :
    ∃ t, execAll (rxPayloads rs) s = .next t ∧ Filling s (rs.map Prod.fst) t := by
  induction rs generalizing s with
  | nil => exact ⟨s, rfl, hp, rfl, rfl, (List.append_nil _).symm⟩
  | cons r rs ih =>
    rw [List.length_cons] at hlen
    have hroom : (storePayload s r.1).cnt + rs.length ≤ 55 := by rw [storePayload_cnt]; omega
    obtain ⟨t, ht, hfill⟩ := ih (s := storePayload s r.1) hp hroom
    have hexec : exec (.rxPayload r.1 r.2) s = .next (storePayload s r.1) := by
      rw [execRxPayload_ok hp (by omega), rxPayloadState_of_room (by omega)]
    refine ⟨t, ?_, hfill.cons⟩
    rw [rxPayloads, List.map_cons, execAll, hexec]
    exact ht

/-- The byte that fills the frame ends the read with what Decode answers for the frame's bytes. -/
theorem fill_last {s : State} (rs : List (Byte × Time)) (b : Byte) (now : Time) (hp : s.phase = .payload)
    (hlen : s.cnt + rs.length = 55) :
    ∃ t, execAll (rxPayloads (rs ++ [(b, now)])) s = .next t ∧ t.phase = .idle ∧ t.cnt = 56 ∧
      t.res = decodeFrame Config.nanSentinel (bufBytes s 0 s.cnt ++ rs.map Prod.fst ++ [b]) now := by
  obtain ⟨t, ht, hfill⟩ := fill_all rs hp hlen.le
  have h55 : t.cnt = 55 := by rw [hfill.cnt, List.length_map, hlen]
  have hframe := storePayload_all t b
  rw [hfill.bytes, h55] at hframe
  have hstate : rxPayloadState t b now =
      deliver (decodeFrame Config.nanSentinel (bufBytes (storePayload t b) 0 56) now) (storePayload t b) :=
    if_pos (congrArg (· + 1) h55)
  refine ⟨rxPayloadState t b now, ?_, ?_⟩
  · rw [rxPayloads, List.map_append]
    exact execAll_concat ht (execRxPayload_ok hfill.phase h55.le)
  · rw [hstate, hframe]
    exact ⟨rfl, congrArg (· + 1) h55, rfl⟩

/-- Of a frame with the marker and a legal hold type Decode gives the reading. -/
theorem decodeFrame_ok {buf : List Byte} (hl : buf.length = 56) (hm : buf.take 5 = Config.marker)
    (hhc : (buf.getD 53 0).toNat ≤ 3) (nan : Pattern) (now : Time) : ∃ r, decodeFrame nan buf now = .ok r := by
  rw [decodeFrame_body hl hm]
  cases hh : holdOf (buf.getD 53 0) with
  | none => exact absurd ((holdOf_eq_none _).mp hh) hhc.not_gt
  | some hold => exact ⟨_, rfl⟩

/-! ### RX events as steps (spec/20_memory.md R33) -/

/-- The state `s` with these bytes in the transport, this position in the stream and this port activity pending. -/
def State.withEnv (s : State) (stream : List Byte) (pos : Nat) (inputs : List Input) : State :=
  { s with stream := stream, pos := pos, inputs := inputs }

section
variable (s : State) (b : Byte) (now : Time) (stream : List Byte) (pos : Nat) (inputs : List Input)

@[simp] theorem State.withEnv_self : s.withEnv s.stream s.pos s.inputs = s := rfl

@[simp] theorem State.withEnv_phase : (s.withEnv stream pos inputs).phase = s.phase := rfl

@[simp] theorem State.withEnv_cnt : (s.withEnv stream pos inputs).cnt = s.cnt := rfl

@[simp] theorem State.withEnv_pos : (s.withEnv stream pos inputs).pos = pos := rfl

/-- An activity and its byte taken. -/
theorem State.withEnv_take (stream' : List Byte) (pos' : Nat) (inputs' : List Input) :
    (((s.withEnv stream pos inputs).setInputs inputs').setStream stream').setPos pos' =
      s.withEnv stream' pos' inputs' := rfl

theorem bufBytes_withEnv (a n : Nat) : bufBytes (s.withEnv stream pos inputs) a n = bufBytes s a n := rfl

theorem deliver_withEnv (r : Res) :
    deliver r (s.withEnv stream pos inputs) = (deliver r s).withEnv stream pos inputs := rfl

theorem storePayload_withEnv :
    storePayload (s.withEnv stream pos inputs) b = (storePayload s b).withEnv stream pos inputs := rfl

theorem syncWindow_withEnv : syncWindow (s.withEnv stream pos inputs) b = syncWindow s b := rfl

theorem storeWindow_withEnv :
    storeWindow (s.withEnv stream pos inputs) b = (storeWindow s b).withEnv stream pos inputs := by
  rw [storeWindow, storeWindow, apply_ite (State.withEnv · stream pos inputs)]
  rfl

theorem rxSyncState_withEnv :
    rxSyncState (s.withEnv stream pos inputs) b = (rxSyncState s b).withEnv stream pos inputs := by
  rw [rxSyncState, rxSyncState, storeWindow_withEnv, syncWindow_withEnv, apply_ite (State.withEnv · stream pos inputs)]
  rfl

theorem rxPayloadState_withEnv :
    rxPayloadState (s.withEnv stream pos inputs) b now = (rxPayloadState s b now).withEnv stream pos inputs := by
  rw [rxPayloadState, rxPayloadState, storePayload_withEnv, bufBytes_withEnv, deliver_withEnv, State.withEnv_cnt,
    apply_ite (State.withEnv · stream pos inputs)]

end

section
variable {i : Instr} {b : Byte} {x : Wires} {s t : State} (hi : i = .rxSync b ∨ i = .rxPayload b x.now)
  (h : exec i s = .next t) (stream : List Byte) (pos : Nat) (inputs : List Input)
include hi h

/-- What RX does with a byte does not depend on the environment's fields, and leaves them alone. -/
theorem exec_rx_withEnv : exec i (s.withEnv stream pos inputs) = .next (t.withEnv stream pos inputs) := by
  rcases hi with rfl | rfl
  · obtain ⟨hp, rfl⟩ := inPhase_next.mp h
    rw [← rxSyncState_withEnv]
    exact inPhase_of_eq hp
  · obtain ⟨hp, hc, rfl⟩ := execRxPayload_next.mp h
    rw [← rxPayloadState_withEnv]
    exact execRxPayload_next.mpr ⟨hp, hc, rfl⟩

/-- An RX event runs its row on the byte it takes from the stream. -/
theorem step_rx_withEnv :
    step (s.withEnv (b :: stream) pos (.event (eventCode .rx) x.now x.err :: inputs)) =
      .next (t.withEnv stream (pos + 1) inputs) := by
  have hexec := exec_rx_withEnv hi h stream (pos + 1) inputs
  have hs := s.withEnv_phase (b :: stream) pos (.event (eventCode .rx) x.now x.err :: inputs)
  rcases hi with rfl | rfl
  · obtain ⟨hp, -⟩ := inPhase_next.mp h
    rw [step_rx_sync rfl (hs.trans hp) rfl, State.withEnv_take, State.withEnv_pos, hexec]
  · obtain ⟨hp, -, -⟩ := execRxPayload_next.mp h
    rw [step_rx_payload rfl (hs.trans hp) rfl, State.withEnv_take, State.withEnv_pos, hexec]

end

theorem rxInputs_append (xs ys : List Wires) : rxInputs (xs ++ ys) = rxInputs xs ++ rxInputs ys := List.map_append

/-- RX events run their rows one after another, consuming exactly the bytes they carry. -/
theorem run_rx {row : Byte × Wires → Instr} (hrow : ∀ r, row r = .rxSync r.1 ∨ row r = .rxPayload r.1 r.2.now)
    {s t : State} (rs : List (Byte × Wires)) (h : execAll (rs.map row) s = .next t) (rest : List Byte) (pos : Nat)
    (more : List Input) :
    Host.Core.run core rs.length (s.withEnv (rs.map Prod.fst ++ rest) pos (rxInputs (rs.map Prod.snd) ++ more)) =
      .next (t.withEnv rest (pos + rs.length) more) := by
  induction rs generalizing s pos with
  | nil => cases h; rfl
  | cons r rs ih =>
    rw [List.map_cons, execAll] at h
    split at h
    · next hr =>
      rw [List.length_cons, ← Nat.add_assoc, Nat.add_right_comm]
      exact (run_succ _ (step_rx_withEnv (hrow r) hr _ _ _)).trans (ih h (pos + 1))
    · cases h
    · cases h

section
variable {s t : State} {bs : List Byte} {xs : List Wires} (hxs : xs.length = bs.length)
include hxs

/-- RX events in SYNC. -/
theorem run_rxSyncs (h : execAll (rxSyncs bs) s = .next t) (rest : List Byte) (pos : Nat) (more : List Input) :
    Host.Core.run core bs.length (s.withEnv (bs ++ rest) pos (rxInputs xs ++ more)) =
      .next (t.withEnv rest (pos + bs.length) more) := by
  have hbs : (bs.zip xs).map Prod.fst = bs := List.map_fst_zip hxs.ge
  rw [← hbs, rxSyncs, List.map_map] at h
  have hrun := run_rx (fun _ => .inl rfl) (bs.zip xs) h rest pos more
  rwa [hbs, List.map_snd_zip hxs.le, List.length_zip, hxs, min_self] at hrun

/-- RX events in PAYLOAD, each with the clock of its step. -/
theorem run_rxPayloads (h : execAll (rxPayloads (bs.zip (xs.map Wires.now))) s = .next t) (rest : List Byte) (pos : Nat)
    (more : List Input) :
    Host.Core.run core bs.length (s.withEnv (bs ++ rest) pos (rxInputs xs ++ more)) =
      .next (t.withEnv rest (pos + bs.length) more) := by
  rw [List.zip_map_right, rxPayloads, List.map_map] at h
  have hrun := run_rx (fun _ => .inr rfl) (bs.zip xs) h rest pos more
  rwa [List.map_fst_zip hxs.ge, List.map_snd_zip hxs.le, List.length_zip, hxs, min_self] at hrun

end

/-! ### A whole attempt (spec/41_sync_scan.md R73) -/

/-- Noise in which no marker begins, then the marker: the payload begins, and the marker is held. -/
theorem sync_after_noise {s : State} {noise : List Byte} (hp : s.phase = .sync) (hc : s.cnt = 0)
    (hn : ¬ Config.marker <:+: noise ++ Config.marker.take 4) :
    ∃ t, execAll (rxSyncs (noise ++ Config.marker)) s = .next t ∧ t.phase = .payload ∧ t.cnt = 5 ∧
      bufBytes t 0 5 = Config.marker := by
  obtain ⟨t, ht, hscan⟩ := scan_all s _ hp hc hn
  have hsplit : noise ++ Config.marker = noise ++ Config.marker.take 4 ++ [0x01#8] := by rw [List.append_assoc]; rfl
  have hsuf : Config.marker <:+ noise ++ Config.marker.take 4 ++ [0x01#8] := hsplit ▸ List.suffix_append _ _
  have hexec : exec (.rxSync 0x01#8) t = .next (rxSyncState t 0x01#8) := inPhase_of_eq hscan.phase
  obtain ⟨hcnt, -, hwin⟩ := hscan.rxSyncState_of_suffix hsuf
  refine ⟨_, ?_, hscan.phase_payload_iff.mpr hsuf, hcnt, hwin⟩
  rw [hsplit, rxSyncs, List.map_append]
  exact execAll_concat ht hexec

/-- The 51 bytes behind the marker end the read with what Decode answers for the frame and the last byte's clock. -/
theorem payload_after_marker {s : State} {body : List Byte} (b : Byte) {xs : List Wires} (x : Wires)
    (hp : s.phase = .payload) (hc : s.cnt = 5) (hwin : bufBytes s 0 5 = Config.marker) (hbody : body.length = 50)
    (hxs : xs.length = 50) :
    ∃ t, execAll (rxPayloads ((body ++ [b]).zip ((xs ++ [x]).map Wires.now))) s = .next t ∧ t.phase = .idle ∧
      t.cnt = 56 ∧ t.res = decodeFrame Config.nanSentinel (Config.marker ++ (body ++ [b])) x.now := by
  have hnows : body.length = (xs.map Wires.now).length := by rw [List.length_map, hxs, hbody]
  have hzip : (body ++ [b]).zip ((xs ++ [x]).map Wires.now) = body.zip (xs.map Wires.now) ++ [(b, x.now)] := by
    rw [List.map_append, List.zip_append hnows]
    rfl
  have hlen : s.cnt + (body.zip (xs.map Wires.now)).length = 55 := by
    rw [hc, List.length_zip, ← hnows, min_self, hbody]
  have hframe : bufBytes s 0 s.cnt ++ (body.zip (xs.map Wires.now)).map Prod.fst ++ [b] =
      Config.marker ++ (body ++ [b]) := by
    rw [hc, hwin, List.map_fst_zip hnows.le, List.append_assoc]
  rw [hzip, ← hframe]
  exact fill_last _ b x.now hp hlen

/-- A frame is the marker, 50 bytes and its last byte. -/
theorem exists_eq_marker_append {frame : List Byte} (hl : frame.length = 56) (hm : frame.take 5 = Config.marker) :
    ∃ body b, frame = Config.marker ++ (body ++ [b]) ∧ body.length = 50 := by
  have hdrop : (frame.drop 5).length = 51 := by rw [List.length_drop, hl]
  rcases List.eq_nil_or_concat' (frame.drop 5) with hnil | ⟨body, b, hbody⟩
  · rw [hnil] at hdrop
    cases hdrop
  · refine ⟨body, b, by rw [← hbody, ← hm, List.take_append_drop], ?_⟩
    rw [hbody, List.length_append] at hdrop
    exact Nat.succ_injective hdrop

end Sys2Proof.Machine

namespace Sys2Proof

open Machine

/-- Settles O9: the step stores the window it compares. -/
theorem rxSyncSlidesTheWindow : Obligations.RxSyncSlidesTheWindow := by
  intro s b hp
  refine ⟨rxSyncState s b, syncWindow s b, rfl, inPhase_of_eq hp, ?_, fun a => ?_, fun hc => ?_, fun hw => ?_,
    fun hw => ?_, rxSyncState_res s b, keepsLimits_rxSyncState s b, keepsEnv_rxSyncState s b⟩
  · rw [rxSyncState_cnt, storeWindow_cnt]
  · rw [rxSyncState_buf, storeWindow_read]
  · rw [rxSyncState_cnt, storeWindow_bytes s b hc _ (rxSyncState_buf s b) (rxSyncState_draws s b)]
  · exact rxSyncState_of_marker hw
  · exact hp ▸ rxSyncState_of_ne_marker hw

/-- Settles O10: the window is the last five bytes received, so that it is the marker where the marker ends them. -/
theorem syncEndsAtTheFirstMarker : Obligations.SyncEndsAtTheFirstMarker := by
  intro s bs b hp hc hn
  obtain ⟨t, ht, hscan⟩ := scan_all s bs hp hc hn
  exact ⟨t, rxSyncState t b, ht, hscan.phase, inPhase_of_eq hscan.phase, hscan.phase_payload_iff,
    fun hpay => hscan.rxSyncState_of_suffix (hscan.phase_payload_iff.mp hpay)⟩

/-- Settles O11: the counter is the only number but 0 of marker bytes, from the first on, that end the bytes received. -/
theorem prefixCounterMatchesTheWindow : Obligations.PrefixCounterMatchesTheWindow := by
  intro s bs b hp hc hn
  obtain ⟨t, ht, hscan⟩ := scan_all s bs hp hc hn
  have hm := matched_foldl bs
  have hne : bs.foldl prefixCounter 0 ≠ 5 := fun h5 => hn (hm.marker_suffix_iff.mpr h5).isInfix
  refine ⟨t, rxSyncState t b, _, rfl, ht, inPhase_of_eq hscan.phase, ?_, lt_of_le_of_ne hm.le hne,
    (hm.suffix_iff _ hm.le).mpr (.inr rfl), fun k hk hk5 hsuf => ?_⟩
  · rw [hscan.phase_payload_iff, (hm.concat b).marker_suffix_iff]
  · rcases (hm.suffix_iff k hk5).mp hsuf with h0 | hkm <;> omega

/-- Settles O12: the noise and the marker run in SYNC, the 51 bytes behind it in PAYLOAD, the last of which delivers. -/
theorem frameAfterNoiseIsRead : Obligations.FrameAfterNoiseIsRead := by
  intro s noise frame rest xs x more hp hc hlen hmark hhc hn hstream hxs hin
  obtain ⟨r, hr⟩ := decodeFrame_ok hlen hmark hhc Config.nanSentinel x.now
  obtain ⟨body, b, rfl, hbody⟩ := exists_eq_marker_append hlen hmark
  obtain ⟨xs₁, xs₂, rfl, hxs₁⟩ : ∃ xs₁ xs₂, xs = xs₁ ++ xs₂ ∧ xs₁.length = noise.length + 5 :=
    ⟨xs.take _, xs.drop _, (List.take_append_drop _ xs).symm, List.length_take_of_le (by omega)⟩
  have hxs₂ : xs₂.length = 50 := by rw [List.length_append] at hxs; omega
  obtain ⟨u, hu, hup, huc, huwin⟩ := sync_after_noise hp hc hn
  obtain ⟨v, hv, hvp, hvc, hvres⟩ := payload_after_marker b x hup huc huwin hbody hxs₂
  have hsync := run_rxSyncs (by rw [hxs₁, List.length_append]; rfl) hu (body ++ [b] ++ rest) s.pos
    (rxInputs (xs₂ ++ [x]) ++ more)
  have hpayload := run_rxPayloads (by rw [List.length_append, List.length_append, hxs₂, hbody]; rfl) hv rest
    (s.pos + (noise ++ Config.marker).length) more
  have hstream' : noise ++ Config.marker ++ (body ++ [b] ++ rest) = s.stream := by
    rw [hstream]
    simp only [List.append_assoc]
  have hin' : rxInputs xs₁ ++ (rxInputs (xs₂ ++ [x]) ++ more) = s.inputs := by
    rw [hin, List.append_assoc xs₁, rxInputs_append xs₁, List.append_assoc]
  rw [hstream', hin', State.withEnv_self] at hsync
  have hrun := (run_add _ (body ++ [b]).length hsync).trans hpayload
  have hcount : (noise ++ Config.marker).length + (body ++ [b]).length = noise.length + 56 := by
    rw [← List.length_append, List.append_assoc, List.length_append, hlen]
  rw [Nat.add_assoc, hcount] at hrun
  exact ⟨_, r, hrun, hvp, hvc, hvres.trans hr, hr, rfl, rfl, rfl⟩

/-- Settles O13: START empties the window, and fewer than five bytes hold no marker. -/
theorem startCarriesNothingOver : Obligations.StartCarriesNothingOver := by
  intro s bs hp hlen
  have hn : ¬ Config.marker <:+: bs := fun h => absurd h.length_le hlen.not_ge
  obtain ⟨t, ht, hscan⟩ := scan_all (startState s) bs rfl rfl hn
  obtain ⟨buf, cnt, hrest⟩ := hscan.rest
  have hstart : exec .start s = .next (startState s) := inPhase_of_eq hp
  refine ⟨t, ?_, hscan.phase, ?_, ?_, by rw [hrest]; rfl⟩
  · rw [execAll, hstart]
    exact ht
  · rw [hscan.cnt, min_eq_right hlen.le]
  · rw [hscan.win, last5, Nat.sub_eq_zero_of_le hlen.le, List.drop_zero]

end Sys2Proof

/-! The payload read of spec/42_payload_read.md: what a byte in PAYLOAD leaves, the frame that the last one completes, and
what Decode answers for it. -/

namespace Sys2Proof.Machine

/-! ### A byte in PAYLOAD (spec/42_payload_read.md R77) -/

section
variable (s : State) (b : Byte) (now : Time)

@[simp] theorem rxPayloadState_cnt : (rxPayloadState s b now).cnt = s.cnt + 1 := by
  rcases rxPayloadState_cases s b now with ⟨-, e⟩ | ⟨-, e⟩ <;> rw [e] <;> rfl

@[simp] theorem rxPayloadState_buf : (rxPayloadState s b now).buf = (storePayload s b).buf := by
  rcases rxPayloadState_cases s b now with ⟨-, e⟩ | ⟨-, e⟩ <;> rw [e]
  rfl

@[simp] theorem rxPayloadState_timer : (rxPayloadState s b now).timer = s.timer := by
  rcases rxPayloadState_cases s b now with ⟨-, e⟩ | ⟨-, e⟩ <;> rw [e] <;> rfl

variable {s}

/-- The 56th byte ends the read with what Decode answers for the 55 bytes held and that byte. -/
theorem rxPayloadState_of_last (hc : s.cnt = 55) :
    rxPayloadState s b now =
      deliver (decodeFrame Config.nanSentinel (bufBytes s 0 55 ++ [b]) now) (storePayload s b) := by
  have hframe := storePayload_all s b
  rw [hc] at hframe
  rw [← hframe]
  exact if_pos (congrArg (· + 1) hc)

/-- Delivering what Decode answers raises DONE. -/
theorem deliver_decodeFrame_done (nan : Pattern) (buf : List Byte) :
    (deliver (decodeFrame nan buf now) s).done = true :=
  decide_eq_true (decodeFrame_done nan buf now)

end

/-! ### The completed frame (spec/42_payload_read.md R78, R80) -/

theorem bufBytes_take (s : State) (a : Nat) {m n : Nat} (h : m ≤ n) : (bufBytes s a n).take m = bufBytes s a m := by
  rw [bufBytes, ← List.map_take, List.take_range, min_eq_left h, bufBytes]

/-- Under the invariant the frame begins with the marker. -/
theorem Inv.frame_marker {s : State} (h : Inv s) (hp : s.phase = .payload) (b : Byte) :
    (bufBytes s 0 55 ++ [b]).take 5 = Config.marker := by
  rw [List.take_append_of_le_length (by simp), bufBytes_take s 0 (by decide), h.payload_marker hp]

theorem frame_length (s : State) (b : Byte) : (bufBytes s 0 55 ++ [b]).length = 56 := by simp

/-- The frame's hold-type byte was held before its last byte. -/
theorem frame_holdByte (s : State) (b : Byte) : (bufBytes s 0 55 ++ [b]).getD 53 0 = bufByte s 53 := by
  rw [List.getD_append _ _ _ _ (by simp), List.getD_eq_getElem?_getD, bufBytes_getElem?]
  rfl

/-- Of a frame with the marker the hold-type byte alone decides whether Decode reports the hold type. -/
theorem decodeFrame_eq_invalidHoldType_iff {buf : List Byte} (hl : buf.length = 56) (hm : buf.take 5 = Config.marker)
    (nan : Pattern) (now : Time) :
    decodeFrame nan buf now = .err .invalidHoldType ↔ 3 < (buf.getD 53 0).toNat := by
  rw [decodeFrame_body hl hm, ← holdOf_eq_none]
  cases holdOf (buf.getD 53 0) <;> simp

theorem ne_of_portOnly {r k : Res} (hr : portOnly r = false) (hk : portOnly k = true) : r ≠ k := by
  rintro rfl
  exact Bool.false_ne_true (hr.symm.trans hk)

end Sys2Proof.Machine

namespace Sys2Proof

open Machine

/-- Settles O14: a byte with room behind it is only stored, and the 56th is stored and delivers Decode's answer. -/
theorem rxPayloadStoresAndDelivers : Obligations.RxPayloadStoresAndDelivers := by
  intro s b now hp hc
  refine ⟨rxPayloadState s b now, execRxPayload_ok hp hc, rxPayloadState_cnt s b now, rxPayloadState_timer s b now,
    fun a => ?_, fun hroom => ?_, fun hlast => ?_, keepsLimits_rxPayloadState s b now, keepsEnv_rxPayloadState s b now⟩
  · rw [rxPayloadState_buf, storePayload_read]
  · rw [rxPayloadState_of_room hroom]
    exact ⟨hp, rfl⟩
  · rw [rxPayloadState_of_last b now hlast]
    exact ⟨rfl, rfl, rfl, rfl, deliver_decodeFrame_done now _ _⟩

/-- Settles O15: the bytes are stored one after another, and the one that fills the frame delivers. -/
theorem payloadIsNotScanned : Obligations.PayloadIsNotScanned := by
  intro s bs hp
  refine ⟨fun hlen => ?_, fun b now hlen => fill_last bs b now hp hlen⟩
  obtain ⟨t, ht, hfill⟩ := fill_all bs hp hlen
  exact ⟨t, ht, hfill.phase, by rw [hfill.cnt, List.length_map], hfill.timer⟩

/-- Settles O16: the frame is 56 bytes that begin with the marker, so that only its hold-type byte can be wrong. -/
theorem readerReportsOnlyBadHoldTypes : Obligations.ReaderReportsOnlyBadHoldTypes := by
  intro s b now h hp hc
  have hl := frame_length s b
  have hm := h.frame_marker hp b
  have hres := portOnly_decodeFrame (nan := Config.nanSentinel) (now := now) hl hm
  refine ⟨rxPayloadState s b now, execRxPayload_ok hp hc.le, ?_⟩
  rw [rxPayloadState_of_last b now hc, deliver_res, ← frame_holdByte s b]
  exact ⟨rfl, rfl, ne_of_portOnly hres rfl, ne_of_portOnly hres rfl, ne_of_portOnly hres rfl,
    decodeFrame_eq_invalidHoldType_iff hl hm _ _, fun hhc => decodeFrame_ok hl hm hhc _ _⟩

end Sys2Proof

/-! The transport events and the timer of spec/43_transport_events_and_timer.md: what ends a read with an error, where
the timer is loaded, and how many ticks an attempt can take. -/

namespace Sys2Proof.Machine

/-! ### The end of a read with an error (spec/60_exceptions.md R117) -/

theorem endedOnly_deliver (r : Res) (s : State) : EndedOnly s (deliver r s) :=
  ⟨rfl, rfl, rfl, fun _ => rfl, ⟨rfl, rfl⟩, rfl, rfl, rfl, rfl⟩

/-- No result but None has the code 0. -/
theorem Res.kindCode_ne_zero {r : Res} (h : r ≠ .none) : r.kindCode ≠ 0 := by
  cases r with
  | none => exact absurd rfl h
  | ok r => simp [Res.kindCode]
  | err k => cases k <;> simp [Res.kindCode]

theorem raise_ends (k : ErrorKind) (s : State) :
    (raise k s).res = .err k ∧ EndedOnly s (raise k s) ∧ (raise k s).busy = false ∧ (raise k s).done = true :=
  ⟨rfl, endedOnly_deliver _ s, rfl, decide_eq_true (Res.kindCode_ne_zero nofun)⟩

/-- A transport error's payload is read out as it came. -/
theorem raise_io_ends (e : IoCode) (s : State) :
    (raise (.io e) s).res = .err (.io e) ∧ readResIo (raise (.io e) s) = e ∧ EndedOnly s (raise (.io e) s) ∧
      (raise (.io e) s).busy = false ∧ (raise (.io e) s).done = true :=
  ⟨rfl, readResIo_of_io rfl, (raise_ends (.io e) s).2⟩

/-! ### Transport events in IDLE (spec/43_transport_events_and_timer.md R90) -/

theorem inPhase_transport_of_idle {p : Phase} {s t : State} (hp : s.phase = .idle) (hne : p ≠ .idle) :
    inPhase p (transportRefusal s) s t = .refused .notEnabled := by
  rw [inPhase_of_ne (hp.trans_ne hne.symm), transportRefusal, if_pos hp]

theorem execRxPayload_of_ne {s : State} (hp : s.phase ≠ .payload) (b : Byte) (now : Time) :
    execRxPayload b now s = inPhase .payload (transportRefusal s) s (rxPayloadState s b now) :=
  if_neg fun hfull => hp hfull.1

/-! ### Ticks (spec/43_transport_events_and_timer.md R85, R86) -/

section
variable {k : ErrorKind} {s : State}

theorem tickState_of_ne_zero (h : s.timer ≠ 0) : tickState k s = s.setTimer (s.timer - 1) := if_pos h

theorem tickState_of_zero (h : s.timer = 0) : tickState k s = raise k s := if_neg (not_not_intro h)

theorem tickState_expires (h : s.timer = 0) :
    (tickState k s).res = .err k ∧ EndedOnly s (tickState k s) ∧ (tickState k s).busy = false ∧
      (tickState k s).done = true := by
  rw [tickState_of_zero h]
  exact raise_ends k s

theorem exec_tickSync (hp : s.phase = .sync) : exec .tickSync s = .next (tickState .syncTimeout s) := inPhase_of_eq hp

theorem exec_tickPayload (hp : s.phase = .payload) : exec .tickPayload s = .next (tickState .payloadTimeout s) :=
  inPhase_of_eq hp

end

/-- A tick that answers a next state in SYNC or PAYLOAD counts down or ends the read. -/
theorem exec_busyTick {i : Instr} {s t : State} (hi : isBusyTick i = true) (h : exec i s = .next t) :
    ∃ k, t = tickState k s := by
  rcases of_decide_eq_true hi with rfl | rfl
  · obtain ⟨-, rfl⟩ := inPhase_next.mp h
    exact ⟨_, rfl⟩
  · obtain ⟨-, rfl⟩ := inPhase_next.mp h
    exact ⟨_, rfl⟩

/-! One argument for both phases: `i` is the tick of the phase `p`, and the deadline's error there is `k`. -/

section
variable {i : Instr} {p : Phase} {k : ErrorKind}
  (hi : ∀ {s : State}, s.phase = p → exec i s = .next (tickState k s)) {s : State} (hp : s.phase = p)
include hi hp

/-- Ticks that the timer has left count it down. -/
theorem execAll_ticks {n : Nat} (hn : n ≤ s.timer) :
    execAll (List.replicate n i) s = .next (s.setTimer (s.timer - n)) := by
  induction n with
  | zero => rfl
  | succ n ih =>
    have hleft : (s.setTimer (s.timer - n)).timer ≠ 0 := Nat.sub_ne_zero_of_lt hn
    have htick : exec i (s.setTimer (s.timer - n)) = .next (s.setTimer (s.timer - (n + 1))) := by
      rw [hi ((State.setTimer_phase s _).trans hp), tickState_of_ne_zero hleft]
      rfl
    rw [List.replicate_succ']
    exact execAll_concat (ih (Nat.le_of_lt hn)) htick

/-- One tick more ends the read. -/
theorem execAll_ticks_expire :
    execAll (List.replicate (s.timer + 1) i) s = .next (raise k (s.setTimer 0)) := by
  have hcount := execAll_ticks hi hp le_rfl
  have htick : exec i (s.setTimer 0) = .next (raise k (s.setTimer 0)) := by
    rw [hi ((State.setTimer_phase s _).trans hp), tickState_of_zero rfl]
  rw [Nat.sub_self] at hcount
  rw [List.replicate_succ']
  exact execAll_concat hcount htick

end

/-! ### Where the timer is loaded (spec/43_transport_events_and_timer.md R88) -/

section
variable {i : Instr} {s t : State}

theorem exec_start_timer (h : exec .start s = .next t) : t.timer = s.syncLimit := by
  obtain ⟨-, rfl⟩ := inPhase_next.mp h
  rfl

/-- The byte that begins the payload loads the timer, whatever was left of it. -/
theorem exec_rxSync_timer {b : Byte} (h : exec (.rxSync b) s = .next t) (ht : t.phase = .payload) :
    t.timer = s.payloadLimit := by
  obtain ⟨hp, rfl⟩ := inPhase_next.mp h
  by_cases hm : syncWindow s b = Config.marker
  · exact (rxSyncState_of_marker hm).2
  · have hphase := (rxSyncState_of_ne_marker hm).1
    rw [ht, hp] at hphase
    cases hphase

/-- A tick keeps the timer where it ends the read, and takes one from it where it does not. -/
theorem tickState_timer (k : ErrorKind) (s : State) :
    (tickState k s).timer = s.timer ∨ (tickState k s).timer + 1 = s.timer := by
  rcases tickState_cases k s with ⟨hne, e⟩ | ⟨-, e⟩ <;> rw [e]
  · exact .inr (Nat.succ_pred_eq_of_ne_zero hne)
  · exact .inl rfl

/-- Away from the two loads the timer stays, is cleared by RESET, or counts down on a tick. -/
theorem exec_timer_of_no_load (h : exec i s = .next t) (hstart : i ≠ .start)
    (hmatch : ¬ (s.phase = .sync ∧ t.phase = .payload)) :
    t.timer = s.timer ∨ (i = .reset ∧ t.timer = 0) ∨ (isBusyTick i = true ∧ t.timer + 1 = s.timer) := by
  cases hport : isPortOp i with
  | true =>
    obtain ⟨p, hnext⟩ := exec_portOp hport s
    obtain rfl := Host.Outcome.next.inj (hnext.symm.trans h)
    exact .inl rfl
  | false =>
    rcases exec_event hport h with ⟨rfl, rfl⟩ | ⟨rfl, -⟩ | ⟨b, -, hp, rfl⟩ | ⟨b, now, -, -, -, rfl⟩ |
      ⟨k, -, -, rfl | rfl, -⟩ | ⟨rfl, -, rfl⟩ | ⟨rfl, -, rfl⟩ | ⟨-, -, rfl⟩
    · exact .inr (.inl ⟨rfl, rfl⟩)
    · exact absurd rfl hstart
    · have hm : syncWindow s b ≠ Config.marker := fun hm => hmatch ⟨hp, (rxSyncState_of_marker hm).1⟩
      exact .inl (rxSyncState_of_ne_marker hm).2
    · exact .inl (rxPayloadState_timer s b now)
    · exact .inl rfl
    · exact .inl rfl
    · exact (tickState_timer _ s).imp_right fun hdown => .inr ⟨rfl, hdown⟩
    · exact (tickState_timer _ s).imp_right fun hdown => .inr ⟨rfl, hdown⟩
    · exact .inl rfl

end

/-! ### The ticks an attempt can still take (spec/43_transport_events_and_timer.md R89) -/

section
variable {s t : State}

theorem tickBudget_of_idle (hp : s.phase = .idle) : tickBudget s = 0 := by
  rw [tickBudget, hp]

theorem tickBudget_of_sync (hp : s.phase = .sync) : tickBudget s = s.timer + 1 + (s.payloadLimit + 1) := by
  rw [tickBudget, hp]

theorem tickBudget_of_payload (hp : s.phase = .payload) : tickBudget s = s.timer + 1 := by
  rw [tickBudget, hp]

/-- The budget depends on PHASE, TIMER and PAYLOAD_LIMIT only. -/
theorem tickBudget_congr (hp : t.phase = s.phase) (ht : t.timer = s.timer) (hl : t.payloadLimit = s.payloadLimit) :
    tickBudget t = tickBudget s := by
  rw [tickBudget, tickBudget, hp, ht, hl]

/-- The end of an attempt leaves nothing of its budget. -/
theorem tickBudget_le_of_idle (ht : t.phase = .idle) : tickBudget t ≤ tickBudget s :=
  (tickBudget_of_idle ht).trans_le (Nat.zero_le _)

theorem tickBudget_pos (hp : s.phase ≠ .idle) : 0 < tickBudget s := by
  cases h : s.phase with
  | idle => exact absurd h hp
  | sync => rw [tickBudget_of_sync h]; omega
  | payload => rw [tickBudget_of_payload h]; omega

/-- Counting down takes one from the budget of either phase. -/
theorem tickBudget_countDown (hp : s.phase ≠ .idle) (h : s.timer ≠ 0) :
    tickBudget (s.setTimer (s.timer - 1)) + 1 = tickBudget s := by
  cases hphase : s.phase with
  | idle => exact absurd hphase hp
  | sync =>
    rw [tickBudget_of_sync hphase, tickBudget_of_sync ((State.setTimer_phase s _).trans hphase), State.setTimer_timer,
      State.setTimer_payloadLimit]
    omega
  | payload =>
    rw [tickBudget_of_payload hphase, tickBudget_of_payload ((State.setTimer_phase s _).trans hphase),
      State.setTimer_timer]
    omega

theorem tickBudget_tickState (k : ErrorKind) (hp : s.phase ≠ .idle) : tickBudget (tickState k s) < tickBudget s := by
  rcases tickState_cases k s with ⟨hne, e⟩ | ⟨-, e⟩ <;> rw [e]
  · exact Nat.lt_of_succ_le (tickBudget_countDown hp hne).le
  · rw [tickBudget_of_idle (raise_phase k s)]
    exact tickBudget_pos hp

/-- The ticks of the payload are in the budget of the scan: the marker only gives up those the scan had left. -/
theorem tickBudget_rxSyncState (hp : s.phase = .sync) (b : Byte) : tickBudget (rxSyncState s b) ≤ tickBudget s := by
  obtain ⟨-, hlimit⟩ := keepsLimits_rxSyncState s b
  by_cases hm : syncWindow s b = Config.marker
  · obtain ⟨hphase, htimer⟩ := rxSyncState_of_marker hm
    rw [tickBudget_of_payload hphase, htimer, tickBudget_of_sync hp]
    omega
  · obtain ⟨hphase, htimer⟩ := rxSyncState_of_ne_marker hm
    exact (tickBudget_congr hphase htimer hlimit).le

theorem tickBudget_rxPayloadState (s : State) (b : Byte) (now : Time) :
    tickBudget (rxPayloadState s b now) ≤ tickBudget s := by
  obtain ⟨-, hlimit⟩ := keepsLimits_rxPayloadState s b now
  rcases rxPayloadState_phase s b now with hphase | ⟨hidle, -⟩
  · exact (tickBudget_congr hphase (rxPayloadState_timer s b now) hlimit).le
  · exact tickBudget_le_of_idle hidle

/-- While a read is in flight no operation raises its budget. -/
theorem tickBudget_exec_le {i : Instr} (h : exec i s = .next t) (hbusy : s.phase ≠ .idle) :
    tickBudget t ≤ tickBudget s := by
  cases hport : isPortOp i with
  | true =>
    obtain ⟨p, hnext⟩ := exec_portOp hport s
    obtain rfl := Host.Outcome.next.inj (hnext.symm.trans h)
    exact (tickBudget_congr rfl rfl rfl).le
  | false =>
    rcases exec_event hport h with ⟨-, rfl⟩ | ⟨-, hidle, -⟩ | ⟨b, -, hp, rfl⟩ | ⟨b, now, -, -, -, rfl⟩ |
      ⟨k, -, -, rfl | rfl, -⟩ | ⟨-, -, rfl⟩ | ⟨-, -, rfl⟩ | ⟨-, -, rfl⟩
    · exact tickBudget_le_of_idle rfl
    · exact absurd hidle hbusy
    · exact tickBudget_rxSyncState hp b
    · exact tickBudget_rxPayloadState s b now
    · exact tickBudget_le_of_idle rfl
    · exact le_rfl
    · exact (tickBudget_tickState _ hbusy).le
    · exact (tickBudget_tickState _ hbusy).le
    · exact le_rfl

end

end Sys2Proof.Machine

namespace Sys2Proof

open Machine

/-- Settles O17: the policy decides between the end of the read and no change. -/
theorem transportTimeoutInSync : Obligations.TransportTimeoutInSync := by
  intro s hp
  refine ⟨ttoState Config.ttoPolicy .syncTimeout s, inPhase_of_eq hp, ?_⟩
  cases Config.ttoPolicy with
  | endPhase => exact raise_ends .syncTimeout s
  | tolerate => rfl

/-- Settles O18: as in SYNC, with the error of PAYLOAD. -/
theorem transportTimeoutInPayload : Obligations.TransportTimeoutInPayload := by
  intro s hp
  refine ⟨ttoState Config.ttoPolicy .payloadTimeout s, inPhase_of_eq hp, ?_⟩
  cases Config.ttoPolicy with
  | endPhase => exact raise_ends .payloadTimeout s
  | tolerate => rfl

/-- Settles O19: both phases raise the same error. -/
theorem transportErrorIsDelivered : Obligations.TransportErrorIsDelivered := fun s e =>
  ⟨fun hp => ⟨raise (.io e) s, inPhase_of_eq hp, raise_io_ends e s⟩,
    fun hp => ⟨raise (.io e) s, inPhase_of_eq hp, raise_io_ends e s⟩⟩

/-- Settles O20, by whether a tick is left. -/
theorem tickInSyncCountsOrExpires : Obligations.TickInSyncCountsOrExpires := fun _ hp =>
  ⟨_, exec_tickSync hp, tickState_of_ne_zero, tickState_expires⟩

/-- Settles O21, by whether a tick is left. -/
theorem tickInPayloadCountsOrExpires : Obligations.TickInPayloadCountsOrExpires := fun _ hp =>
  ⟨_, exec_tickPayload hp, tickState_of_ne_zero, tickState_expires⟩

/-- Settles O22, by the phase check of TICK.IDLE. -/
theorem tickInIdleChangesNothing : Obligations.TickInIdleChangesNothing := fun _ hp => inPhase_of_eq hp

/-- Settles O23, by the phase check of each row; the full buffer's fault stands behind the phase too. -/
theorem transportEventsNotEnabledInIdle : Obligations.TransportEventsNotEnabledInIdle := by
  intro s hp b now e
  have hsync {t : State} : inPhase .sync (transportRefusal s) s t = .refused .notEnabled :=
    inPhase_transport_of_idle hp nofun
  have hpayload {t : State} : inPhase .payload (transportRefusal s) s t = .refused .notEnabled :=
    inPhase_transport_of_idle hp nofun
  have hrx := (execRxPayload_of_ne (hp.trans_ne nofun) b now).trans hpayload
  exact ⟨hsync, hrx, hsync, hpayload, hsync, hpayload⟩

/-- Settles O24: the ticks the timer has left count it down, by induction on their number, and the next one ends the
read. -/
theorem deadlineExpiresOnTickAfterTheLast : Obligations.DeadlineExpiresOnTickAfterTheLast := by
  refine fun s => ⟨fun hp => ?sync, fun hp => ?payload⟩
  case sync =>
    exact ⟨fun k hk => execAll_ticks exec_tickSync hp hk, _, execAll_ticks_expire exec_tickSync hp, rfl, rfl⟩
  case payload =>
    exact ⟨fun k hk => execAll_ticks exec_tickPayload hp hk, _, execAll_ticks_expire exec_tickPayload hp, rfl, rfl⟩

/-- Settles O25: the two loads, and operation by operation what else can change the timer. -/
theorem timerIsLoadedAtTwoPlaces : Obligations.TimerIsLoadedAtTwoPlaces := by
  intro i s t h
  refine ⟨?start, ?marker, fun hstart hmatch => exec_timer_of_no_load h hstart hmatch⟩
  case start =>
    rintro rfl
    exact exec_start_timer h
  case marker =>
    rintro b rfl - ht
    exact exec_rxSync_timer h ht

/-- Settles O31: the budget is the ticks of both phases at START, and a tick that ends no read takes one of them. -/
theorem ticksOfAnAttemptAreBounded : Obligations.TicksOfAnAttemptAreBounded := by
  refine ⟨fun s t h => ?_, fun i s t h hbusy => ⟨tickBudget_exec_le h hbusy, fun hi => ?_⟩⟩
  · obtain ⟨-, rfl⟩ := inPhase_next.mp h
    rw [tickBudget_of_sync rfl, exec_start_timer h]
    exact Nat.add_add_add_comm _ _ _ _
  · obtain ⟨k, rfl⟩ := exec_busyTick hi h
    exact tickBudget_tickState k hbusy

end Sys2Proof

/-! The decoder of spec/44_decoder.md: what Decode reads of a buffer, the rows of the decoder port, and Decode taken field
by field. -/

namespace Sys2Proof.Machine

/-! ### The reading of a frame (spec/44_decoder.md R94 to R100, R104) -/

/-- One channel of a frame: the sentinel where the byte at `flag` is not 0, the pattern from `value` on elsewhere
(spec/44_decoder.md R96, R99). -/
def channel (nan : Pattern) (buf : List Byte) (value flag : Nat) : Pattern :=
  substitute nan (patternAt buf value) (buf.getD flag 0)

/-- The reading of a frame whose hold type is `h`. -/
def frameReading (nan : Pattern) (buf : List Byte) (h : HoldType) (now : Time) : Reading where
  cur := Quad.ofFn fun i => channel nan buf (5 + 4 * i) (21 + i)
  held := Quad.ofFn fun i => channel nan buf (25 + 4 * i) (41 + i)
  meter := patternAt buf 45
  hold := h
  captime := now

theorem frameReading_cur_get (nan : Pattern) (buf : List Byte) (h : HoldType) (now : Time) (i : Fin 4) :
    (frameReading nan buf h now).cur.get i = if buf.getD (21 + i) 0 ≠ 0 then nan else patternAt buf (5 + 4 * i) :=
  Quad.get_ofFn _ i

theorem frameReading_held_get (nan : Pattern) (buf : List Byte) (h : HoldType) (now : Time) (i : Fin 4) :
    (frameReading nan buf h now).held.get i = if buf.getD (41 + i) 0 ≠ 0 then nan else patternAt buf (25 + 4 * i) :=
  Quad.get_ofFn _ i

section
variable {nan : Pattern} {buf : List Byte} {now : Time}

theorem decodeFrame_of_hold {h : HoldType} (hl : buf.length = 56) (hm : buf.take 5 = Config.marker)
    (hh : holdOf (buf.getD 53 0) = some h) : decodeFrame nan buf now = .ok (frameReading nan buf h now) := by
  rw [decodeFrame_body hl hm, hh]
  simp only [substituteQuad, Quad.get_ofFn]
  rfl

theorem decodeFrame_of_no_hold (hl : buf.length = 56) (hm : buf.take 5 = Config.marker)
    (hh : holdOf (buf.getD 53 0) = none) : decodeFrame nan buf now = .err .invalidHoldType :=
  (decodeFrame_eq_invalidHoldType_iff hl hm nan now).mpr ((holdOf_eq_none _).mp hh)

/-- The four answers of Decode, each with the check that decides it: length, marker, hold type. -/
theorem decodeFrame_cases (nan : Pattern) (buf : List Byte) (now : Time) :
    (buf.length ≠ 56 ∧ decodeFrame nan buf now = .err .wrongSize) ∨
    (buf.length = 56 ∧ buf.take 5 ≠ Config.marker ∧ decodeFrame nan buf now = .err .badSync) ∨
    (buf.length = 56 ∧ buf.take 5 = Config.marker ∧ decodeFrame nan buf now = .err .invalidHoldType) ∨
    (buf.length = 56 ∧ buf.take 5 = Config.marker ∧ ∃ h, decodeFrame nan buf now = .ok (frameReading nan buf h now)) := by
  by_cases hl : buf.length = 56
  · by_cases hm : buf.take 5 = Config.marker
    · cases hh : holdOf (buf.getD 53 0) with
      | none => exact .inr (.inr (.inl ⟨hl, hm, decodeFrame_of_no_hold hl hm hh⟩))
      | some h => exact .inr (.inr (.inr ⟨hl, hm, h, decodeFrame_of_hold hl hm hh⟩))
    · exact .inr (.inl ⟨hl, hm, decodeFrame_sync hl hm⟩)
  · exact .inl ⟨hl, decodeFrame_size hl⟩

end

/-! ### The bytes Decode depends on -/

section
variable {nan : Pattern} {b1 b2 : List Byte} {now : Time}

theorem take_eq_of_getD_eq {n : Nat} (h1 : n ≤ b1.length) (h2 : n ≤ b2.length)
    (h : ∀ k, k < n → b1.getD k 0 = b2.getD k 0) : b1.take n = b2.take n := by
  refine List.ext_getElem (by simp [h1, h2]) fun k hk _ => ?_
  have hkn : k < n := hk.trans_le (List.length_take_le n b1)
  simpa [hkn.trans_le h1, hkn.trans_le h2] using h k hkn

/-- A channel depends on its flag, and on its value where the flag is 0. -/
theorem channel_congr {value flag : Nat} (hflag : b1.getD flag 0 = b2.getD flag 0)
    (hvalue : b1.getD flag 0 = 0 → ∀ k, value ≤ k → k < value + 4 → b1.getD k 0 = b2.getD k 0) :
    channel nan b1 value flag = channel nan b2 value flag := by
  unfold channel substitute
  rw [← hflag]
  split
  · rfl
  · next h0 => exact patternAt_congr (hvalue (not_not.mp h0))

/-- Decode depends on the marker, the flags, the meter and the hold type, and on each value whose flag is 0. -/
theorem decodeFrame_congr (h1 : b1.length = 56) (h2 : b2.length = 56)
    (hfixed : ∀ k, k < 5 ∨ (21 ≤ k ∧ k < 25) ∨ (41 ≤ k ∧ k < 49) ∨ k = 53 → b1.getD k 0 = b2.getD k 0)
    (hcur : ∀ i : Fin 4, b1.getD (21 + i) 0 = 0 → ∀ k, 5 + 4 * (i : Nat) ≤ k → k < 9 + 4 * i → b1.getD k 0 = b2.getD k 0)
    (hheld : ∀ i : Fin 4, b1.getD (41 + i) 0 = 0 →
      ∀ k, 25 + 4 * (i : Nat) ≤ k → k < 29 + 4 * i → b1.getD k 0 = b2.getD k 0) :
    decodeFrame nan b1 now = decodeFrame nan b2 now := by
  have htake : b1.take 5 = b2.take 5 := take_eq_of_getD_eq (by omega) (by omega) fun k hk => hfixed k (.inl hk)
  have hhold : b1.getD 53 0 = b2.getD 53 0 := hfixed 53 (by omega)
  have hreading (h : HoldType) : frameReading nan b1 h now = frameReading nan b2 h now := by
    have hc (i : Fin 4) : channel nan b1 (5 + 4 * i) (21 + i) = channel nan b2 (5 + 4 * i) (21 + i) :=
      channel_congr (hfixed _ (by omega)) fun h0 k hlo hhi => hcur i h0 k hlo (by omega)
    have hh (i : Fin 4) : channel nan b1 (25 + 4 * i) (41 + i) = channel nan b2 (25 + 4 * i) (41 + i) :=
      channel_congr (hfixed _ (by omega)) fun h0 k hlo hhi => hheld i h0 k hlo (by omega)
    have hmeter : patternAt b1 45 = patternAt b2 45 := patternAt_congr fun k hlo hhi => hfixed k (by omega)
    simp only [frameReading, hc, hh, hmeter]
  by_cases hm : b1.take 5 = Config.marker
  · have hm2 := htake ▸ hm
    cases hh : holdOf (b1.getD 53 0) with
    | none => rw [decodeFrame_of_no_hold h1 hm hh, decodeFrame_of_no_hold h2 hm2 (hhold ▸ hh)]
    | some h => rw [decodeFrame_of_hold h1 hm hh, decodeFrame_of_hold h2 hm2 (hhold ▸ hh), hreading]
  · rw [decodeFrame_sync h1 hm, decodeFrame_sync h2 (htake ▸ hm)]

end

/-! ### The decoder port's operations (spec/44_decoder.md R91) -/

theorem isFrame_iff {buf : List Byte} : isFrame buf = true ↔ buf.length = 56 ∧ buf.take 5 = Config.marker := by
  rw [isFrame, Bool.and_eq_true, decide_eq_true_iff, decide_eq_true_iff, Config.frameLen]

/-- A frame of a hold-type variant decodes to a reading of the variant's hold type. -/
theorem decodeFrame_of_isFrameOf {buf : List Byte} {hc : Byte} {h : HoldType} (hf : isFrameOf buf hc = true)
    (hh : holdOf hc = some h) (nan : Pattern) (now : Time) :
    decodeFrame nan buf now = .ok (frameReading nan buf h now) := by
  obtain ⟨hframe, rfl⟩ := isFrameOf_iff.mp hf
  obtain ⟨hl, hm⟩ := isFrame_iff.mp hframe
  exact decodeFrame_of_hold hl hm hh

theorem decodeAtPort_answers (buf : List Byte) (now : Time) (s : State) :
    (decodeAtPort buf now s).port = { s.port with out := decodeFrame Config.nanSentinel buf now } ∧
      KeepsBlock s (decodeAtPort buf now s) :=
  ⟨rfl, keepsBlock_setPort s _⟩

/-- A hold-type variant answers a reading of its hold type on a frame of its row. -/
theorem variant_reads {i : Instr} {buf : List Byte} {now : Time} {s : State} {hc : Byte} {h : HoldType}
    (hx : exec i s = .next (decodeAtPort buf now s)) (hh : holdOf hc = some h) (hf : isFrameOf buf hc = true) :
    ∃ t r, exec i s = .next t ∧ t.port.out = .ok r ∧ r.hold = h :=
  ⟨_, _, hx, decodeFrame_of_isFrameOf hf hh _ _, rfl⟩

theorem fieldAnswers_portField (o : FieldOut) (s : State) : FieldAnswers o s (portField o s) :=
  ⟨rfl, keepsBlock_setPort s _⟩

theorem holdAnswer_of_some {hc : Byte} {h : HoldType} (hh : holdOf hc = some h) : holdAnswer hc = .hold h := by
  rw [holdAnswer, hh]

theorem holdAnswer_of_none {hc : Byte} (hh : holdOf hc = none) : holdAnswer hc = .invalidHoldType := by
  rw [holdAnswer, hh]

/-- A buffer of any length in the whole view is decoded in one step. -/
theorem step_frame {s : State} {buf : List Byte} {now : Time} {more : List Input}
    (hin : s.inputs = .frame .whole buf now :: more) : step s = .next (decodeAtPort buf now (s.setInputs more)) := by
  have hd := decode_frame (view := .whole) (buf := buf) (x := Wires.ofClock now) rfl []
  rw [List.append_nil] at hd
  exact step_word (fetch_cons hin) hd

/-! ### The fields of a buffer, one by one (spec/30_encoding.md R46) -/

/-- Five bytes make the marker word exactly where they are the marker. -/
theorem markerWord_iff {bs : List Byte} (h : bs.length = 5) :
    BitVec.ofNat 40 (leValue bs) = Config.markerWord ↔ bs = Config.marker := by
  constructor
  · intro hw
    have hv : leValue bs = Config.markerWord.toNat := by rw [← hw, toNat_ofNat_leValue (by rw [h])]
    calc bs = leBytes bs.length (leValue bs) := (leBytes_leValue bs).symm
      _ = leBytes 5 Config.markerWord.toNat := by rw [h, hv]
      _ = Config.marker := by decide
  · rintro rfl
    decide

/-- The port activity `x` is a step that writes `o` to the port's field answer and does nothing else. -/
def Answers (x : Input) (o : FieldOut) : Prop :=
  ∀ (s : State) (more : List Input), s.inputs = x :: more → step s = .next (portField o (s.setInputs more))

/-- What the field that begins at an offset of a buffer answers. -/
def fieldAnswer (buf : List Byte) (now : Time) : Nat → FieldOut
  | 0 => if buf.take 5 = Config.marker then .marker else .badSync
  | 5 => .cf 0 (patternAt buf 5)
  | 9 => .cf 1 (patternAt buf 9)
  | 13 => .cf 2 (patternAt buf 13)
  | 17 => .cf 3 (patternAt buf 17)
  | 21 => .ce 0 (buf.getD 21 0)
  | 22 => .ce 1 (buf.getD 22 0)
  | 23 => .ce 2 (buf.getD 23 0)
  | 24 => .ce 3 (buf.getD 24 0)
  | 25 => .hf 0 (patternAt buf 25)
  | 29 => .hf 1 (patternAt buf 29)
  | 33 => .hf 2 (patternAt buf 33)
  | 37 => .hf 3 (patternAt buf 37)
  | 41 => .he 0 (buf.getD 41 0)
  | 42 => .he 1 (buf.getD 42 0)
  | 43 => .he 2 (buf.getD 43 0)
  | 44 => .he 3 (buf.getD 44 0)
  | 45 => .meter (patternAt buf 45)
  | 49 => .discarded
  | 53 => holdAnswer (buf.getD 53 0)
  | 54 => .captime now
  | _ => .none

section
variable {buf : List Byte} {now : Time} {off : Nat}

theorem answers_field32 {mk : Pattern → Instr} {f : Pattern → FieldOut} (hl : off + 4 ≤ buf.length)
    (hw : fieldWidth off = some 4) (hd : decodeField off (Wires.ofClock now) = takeField32 mk)
    (hx : ∀ v s, exec (mk v) s = .next (portField (f v) s)) :
    Answers (.field off ((buf.drop off).take 4) now) (f (patternAt buf off)) := by
  intro s more hin
  rw [← mem32_eq buf off hl]
  exact step_field32 hin (by simp; omega) hw hd hx

theorem answers_field8 {mk : Byte → Instr} {f : Byte → FieldOut} (hl : off + 1 ≤ buf.length)
    (hw : fieldWidth off = some 1) (hd : decodeField off (Wires.ofClock now) = takeField8 mk)
    (hx : ∀ v s, exec (mk v) s = .next (portField (f v) s)) :
    Answers (.field off ((buf.drop off).take 1) now) (f (buf.getD off 0)) := by
  intro s more hin
  rw [← mem8_eq buf off hl]
  exact step_field8 hin (by simp; omega) hw hd hx

theorem answers_sync (hl : 5 ≤ buf.length) :
    Answers (.field 0 (buf.take 5) now) (if buf.take 5 = Config.marker then .marker else .badSync) := by
  intro s more hin
  have h5 : (buf.take 5).length = 5 := List.length_take_of_le hl
  rw [← if_congr (markerWord_iff h5) rfl rfl]
  exact step_field hin (congrArg some h5.symm) (takeLe_all h5 fun v r => .ok (.fieldSync (.ofNat 40 v)) r)

theorem answers_trailer (hl : 56 ≤ buf.length) : Answers (.field 54 ((buf.drop 54).take 2) now) (.captime now) := by
  intro s more hin
  have h2 : ((buf.drop 54).take 2).length = 2 := by simp; omega
  exact step_field hin (congrArg some h2.symm) (takeLe_all h2 fun v r => .ok (.fieldTr (.ofNat 16 v) now) r)

/-- Every field inside a buffer answers what its bytes are, by the offset it begins at. -/
theorem answers_fieldAnswer {n : Nat} (hw : fieldWidth off = some n) (hl : off + n ≤ buf.length) :
    Answers (.field off ((buf.drop off).take n) now) (fieldAnswer buf now off) := by
  unfold fieldWidth at hw
  split at hw <;> cases hw
  case h_1 => exact answers_sync hl
  case h_11 => exact answers_field32 (f := fun _ => .discarded) hl rfl rfl fun _ _ => rfl
  -- the nine one-byte fields: flags and hold type
  case h_12 | h_13 | h_14 | h_15 | h_16 | h_17 | h_18 | h_19 | h_20 => exact answers_field8 hl rfl rfl fun _ _ => rfl
  case h_21 => exact answers_trailer hl
  -- the nine 32-bit values
  all_goals exact answers_field32 hl rfl rfl fun _ _ => rfl

end

/-! ### Decode taken field by field (spec/44_decoder.md R91) -/

/-- What the 21 fields of a buffer answer, in frame order. -/
def frameAnswers (buf : List Byte) (now : Time) : List FieldOut := fieldTable.map fun p => fieldAnswer buf now p.1

theorem fieldTable_widths : ∀ p ∈ fieldTable, fieldWidth p.1 = some p.2 ∧ p.1 + p.2 ≤ 56 := by decide

theorem answers_fieldInputs {buf : List Byte} (hl : buf.length = 56) (now : Time) :
    List.Forall₂ Answers (fieldInputs buf now) (frameAnswers buf now) := by
  rw [fieldInputs, frameAnswers, List.forall₂_map_left_iff, List.forall₂_map_right_iff, List.forall₂_same]
  intro p hp
  obtain ⟨hw, hin⟩ := fieldTable_widths p hp
  exact answers_fieldAnswer hw (hl ▸ hin)

/-- A run of fields collects their answers and changes the queue and the port's field answer only. -/
theorem fieldRun_of_answers {xs : List Input} {os : List FieldOut} (h : List.Forall₂ Answers xs os) {s : State}
    {more : List Input} (hin : s.inputs = xs ++ more) :
    ∃ o, fieldRun xs.length s = some (os, (s.setInputs more).setPort { s.port with field := o }) := by
  induction h generalizing s with
  | nil => exact ⟨s.port.field, by subst hin; rfl⟩
  | @cons x o xs os hx _ ih =>
    obtain ⟨o', hrun⟩ := ih (s := portField o (s.setInputs (xs ++ more))) rfl
    exact ⟨o', fieldRun_cons (hx s _ hin) hrun⟩

/-- Decode's answer is what it makes of the answers of its fields. -/
theorem assemble_frameAnswers {buf : List Byte} (hl : buf.length = 56) (nan : Pattern) (now : Time) :
    assemble nan Locals.init (frameAnswers buf now) = decodeFrame nan buf now := by
  by_cases hm : buf.take 5 = Config.marker
  · have hsync : fieldAnswer buf now 0 = .marker := if_pos hm
    cases hh : holdOf (buf.getD 53 0) with
    | none =>
      have hhold : fieldAnswer buf now 53 = .invalidHoldType := holdAnswer_of_none hh
      rw [decodeFrame_of_no_hold hl hm hh, frameAnswers, fieldTable]
      simp only [List.map_cons, hsync, hhold]
      rfl
    | some h =>
      have hhold : fieldAnswer buf now 53 = .hold h := holdAnswer_of_some hh
      rw [decodeFrame_of_hold hl hm hh, frameAnswers, fieldTable]
      simp only [List.map_cons, hsync, hhold]
      rfl
  · have hsync : fieldAnswer buf now 0 = .badSync := if_neg hm
    rw [decodeFrame_sync hl hm, frameAnswers, fieldTable, List.map_cons, hsync]
    rfl

end Sys2Proof.Machine

namespace Sys2Proof

open Machine

/-- Settles O32: of the four answers of Decode one is WrongSize, and it stands where the length is not 56. -/
theorem decodeChecksTheSize : Obligations.DecodeChecksTheSize := by
  intro nan buf now
  rcases decodeFrame_cases nan buf now with ⟨hl, h⟩ | ⟨hl, -, h⟩ | ⟨hl, -, h⟩ | ⟨hl, -, _, h⟩ <;> simp [hl, h]

/-- Settles O33: of the answers for 56 bytes one is BadSync, and it stands where they do not begin with the marker. -/
theorem decodeChecksTheMarker : Obligations.DecodeChecksTheMarker := by
  intro nan buf now hlen
  change _ ↔ buf.take 5 ≠ Config.marker
  rcases decodeFrame_cases nan buf now with ⟨hl, -⟩ | ⟨-, hm, h⟩ | ⟨-, hm, h⟩ | ⟨-, hm, _, h⟩
  · exact absurd hlen hl
  all_goals simp [hm, h]

/-- Settles O34, by the map of hold-type codes. -/
theorem decodeMapsTheHoldType : Obligations.DecodeMapsTheHoldType := fun nan _ now hl hm =>
  ⟨(decodeFrame_eq_invalidHoldType_iff hl hm nan now).mpr,
    fun h hcode => ⟨_, decodeFrame_of_hold hl hm ((holdOf_eq_some _ h).mpr hcode), rfl⟩⟩

/-- Settles O35: the reading of the frame, field by field. -/
theorem decodeReadsEveryField : Obligations.DecodeReadsEveryField := by
  intro nan buf now hl hm hhc
  cases hh : holdOf (buf.getD 53 0) with
  | none => exact absurd ((holdOf_eq_none _).mp hh) hhc.not_gt
  | some h =>
    exact ⟨_, decodeFrame_of_hold hl hm hh, frameReading_cur_get nan buf h now, frameReading_held_get nan buf h now, rfl,
      rfl, rfl⟩

/-- Settles O36, by the four answers of Decode. -/
theorem decodeIsTotalAndComplete : Obligations.DecodeIsTotalAndComplete := by
  refine fun nan buf now => ⟨decodeFrame_ne_incompleteParse nan buf now, ?_⟩
  rcases decodeFrame_cases nan buf now with ⟨-, h⟩ | ⟨-, -, h⟩ | ⟨-, -, h⟩ | ⟨-, -, _, h⟩
  · exact .inr (.inl h)
  · exact .inr (.inr (.inl h))
  · exact .inr (.inr (.inr h))
  · exact .inl ⟨_, h⟩

/-- Settles O37: no byte that Decode depends on is in the unknown field or the trailer. -/
theorem unknownAndTrailerChangeNothing : Obligations.UnknownAndTrailerChangeNothing := fun _ _ _ _ h1 h2 h =>
  decodeFrame_congr h1 h2 (fun k hk => h k (by omega)) (fun i _ k _ hk => h k (by omega))
    fun i _ k _ hk => h k (by omega)

/-- Settles O38: the two buffers differ in one value only, and its flag is not 0. -/
theorem flaggedValueIsDiscarded : Obligations.FlaggedValueIsDiscarded := by
  refine fun nan b1 b2 now i h1 h2 => ⟨fun hflag h => ?cur, fun hflag h => ?held⟩
  case cur =>
    refine decodeFrame_congr h1 h2 (fun k hk => h k (by omega)) (fun j h0 k hlo hhi => h k fun hin => ?_)
      fun j _ k hlo hhi => h k (by omega)
    obtain rfl : j = i := by omega
    exact hflag h0
  case held =>
    refine decodeFrame_congr h1 h2 (fun k hk => h k (by omega)) (fun j _ k hlo hhi => h k (by omega))
      fun j h0 k hlo hhi => h k fun hin => ?_
    obtain rfl : j = i := by omega
    exact hflag h0

/-- Settles O39: the six rows are one operation, and a variant's row fixes the byte its hold type is mapped from. -/
theorem frameRowsAnswerDecode : Obligations.FrameRowsAnswerDecode := by
  intro s buf now
  simp only [List.forall_mem_cons, List.not_mem_nil, false_implies, implies_true, and_true]
  have hrow := decodeAtPort_answers buf now s
  exact ⟨⟨⟨_, rfl, hrow⟩, ⟨_, rfl, hrow⟩, ⟨_, rfl, hrow⟩, ⟨_, rfl, hrow⟩, ⟨_, rfl, hrow⟩, ⟨_, rfl, hrow⟩⟩,
    variant_reads rfl rfl, variant_reads rfl rfl, variant_reads rfl rfl, variant_reads rfl rfl⟩

/-- Settles O43: each field answers as its bytes are, and Decode makes its own answer of theirs. -/
theorem fieldByFieldIsDecode : Obligations.FieldByFieldIsDecode := by
  intro s buf now nan more hl hin
  obtain ⟨o, hrun⟩ := fieldRun_of_answers (answers_fieldInputs hl now) hin
  exact ⟨_, _, hrun, assemble_frameAnswers hl nan now, rfl, keepsBlock_setPort _ _, rfl, rfl⟩

/-- Settles O40, field by field. -/
theorem valueFieldsAreExtracted : Obligations.ValueFieldsAreExtracted := by
  intro s v
  have answers (o : FieldOut) := fieldAnswers_portField o s
  simp only [List.forall_mem_cons, List.not_mem_nil, false_implies, implies_true, and_true]
  exact ⟨⟨⟨_, rfl, answers _⟩, ⟨_, rfl, answers _⟩, ⟨_, rfl, answers _⟩, ⟨_, rfl, answers _⟩⟩,
    ⟨⟨_, rfl, answers _⟩, ⟨_, rfl, answers _⟩, ⟨_, rfl, answers _⟩, ⟨_, rfl, answers _⟩⟩,
    ⟨_, rfl, answers _⟩, ⟨_, rfl, answers _⟩⟩

/-- Settles O41, flag by flag. -/
theorem flagFieldsAreExtracted : Obligations.FlagFieldsAreExtracted := by
  intro s v
  have answers (o : FieldOut) := fieldAnswers_portField o s
  simp only [List.forall_mem_cons, List.not_mem_nil, false_implies, implies_true, and_true]
  exact ⟨⟨⟨_, rfl, answers _⟩, ⟨_, rfl, answers _⟩, ⟨_, rfl, answers _⟩, ⟨_, rfl, answers _⟩⟩,
    ⟨_, rfl, answers _⟩, ⟨_, rfl, answers _⟩, ⟨_, rfl, answers _⟩, ⟨_, rfl, answers _⟩⟩

/-- Settles O42: the hold type's answer is by the map of hold-type codes. -/
theorem syncHoldAndTrailerFields : Obligations.SyncHoldAndTrailerFields := by
  refine fun s v hc tr now => ⟨⟨_, rfl, fieldAnswers_portField _ s⟩,
    ⟨portField (holdAnswer hc) s, rfl, fun h hcode => ?_, fun hlt => ?_⟩, ⟨_, rfl, fieldAnswers_portField _ s⟩⟩
  · rw [holdAnswer_of_some ((holdOf_eq_some hc h).mpr hcode)]
    exact fieldAnswers_portField _ s
  · rw [holdAnswer_of_none ((holdOf_eq_none hc).mpr hlt)]
    exact fieldAnswers_portField _ s

/-- Settles O56: the whole view takes a buffer of any length to Decode, which checks the length. -/
theorem decoderPortTakesAnyLength : Obligations.DecoderPortTakesAnyLength := by
  intro s buf now more hin
  obtain ⟨hport, hkeeps⟩ := decodeAtPort_answers buf now (s.setInputs more)
  exact ⟨_, step_frame hin, hport, decodeFrame_size, rfl, hkeeps⟩

end Sys2Proof

/-! The delivery of a result of spec/60_exceptions.md: DONE rises with every result but None. -/

namespace Sys2Proof.Machine

theorem deliver_done {r : Res} (hr : r ≠ .none) (s : State) : (deliver r s).done = true :=
  decide_eq_true (Res.kindCode_ne_zero hr)

end Sys2Proof.Machine

namespace Sys2Proof

open Machine

/-- Settles O28: the frame is that of a read's end, whatever the result, and no result but None leaves DONE low. -/
theorem deliveryWritesResultAndPhase : Obligations.DeliveryWritesResultAndPhase := fun r s =>
  ⟨deliver_res r s, endedOnly_deliver r s, rfl, rfl, fun hr => deliver_done hr s⟩

end Sys2Proof

/-! Reset and hazards, spec/70_reset_and_hazards.md: the values of reset, and the limit write the host must not make. -/

namespace Sys2Proof.Machine

theorem State.busy_eq_true_iff {s : State} : s.busy = true ↔ s.phase ≠ .idle :=
  decide_eq_true_iff

end Sys2Proof.Machine

namespace Sys2Proof

open Machine

/-- Settles O1, register by register; the reset limit is defined as five seconds of ticks. -/
theorem resetLeavesTheSpecifiedValues : Obligations.ResetLeavesTheSpecifiedValues :=
  ⟨rfl, rfl, rfl, rfl, rfl, rfl⟩

/-- Settles O6: BUSY is PHASE away from IDLE, which the limit write refuses before it looks at the register or the value. -/
theorem limitWriteWhileBusyIsRefused : Obligations.LimitWriteWhileBusyIsRefused := fun _ r v hbusy =>
  writeLimit_of_busy (State.busy_eq_true_iff.mp hbusy) r v

end Sys2Proof
